-- ==== Sys2Proof/Word.lean ====
section
/-! DEFINITION. The three word types of the block's interface. -/

namespace Sys2Proof

/-- The data of one access, `DATA_W` = 8 bits (R8, R52). -/
abbrev Byte := BitVec 8

/-- A bus address, `ADDR_W` = 32 bits, unsigned, naming one byte (R8, R50). -/
abbrev Addr := BitVec 32

/-- The 42-bit transaction word `T` in which the spec packs an operation (R81). -/
abbrev TWord := BitVec 42

end Sys2Proof
end

