-- ==== Sys2Proof/Config.lean ====
section
/-! DEFINITION. The fixed constants of the block (R8), the named model arguments with their defaults (R10), the status names and
codes (R200, R201), and the configuration record that `load` fills in (R22). -/

namespace Sys2Proof

namespace Config

/-- `WIN_SIZE`: the size of one window and of one bank slice, 512 KiB (R8). -/
@[simp, reducible] def winSize : Nat := 0x80000
/-- `FIXED_HI`: the last address of the fixed window (R8). -/
@[simp, reducible] def fixedHi : Nat := 0x07FFFF
/-- `WIN_BASE(n)`: the start of window `n` (R8). -/
@[simp, reducible] def winBase (n : Nat) : Nat := 0x080000 + n * winSize
/-- `WIN_TOP`: the last address of window 6 (R8). -/
@[simp, reducible] def winTop : Nat := 0x3FFFFF
/-- `REG_ARM`: the address of the mapper's enable register (R8). -/
@[simp, reducible] def regArm : Nat := 0xA130F1
/-- `REG_BANK_LO`: the lowest address of the bank-select registers (R8). -/
@[simp, reducible] def regBankLo : Nat := 0xA130F3
/-- `REG_BANK_HI`: the highest address of the bank-select registers (R8). -/
@[simp, reducible] def regBankHi : Nat := 0xA131FF
/-- `CAPABLE_THRESHOLD`: the mapper is capable iff the image is strictly longer (R8, R26). -/
@[simp, reducible] def capableThreshold : Nat := 0x400000
/-- `REGION_MAX`: the largest legal size of the working RAM and of the save RAM (R8, R174). -/
@[simp, reducible] def regionMax : Nat := 0x100000
/-- `WRITE_TRIM`: the number of top addresses of a RAM window excluded from writes (R8). -/
@[simp, reducible] def writeTrim : Nat := 2
/-- `HEADER_LEN`: the length of the header layout (R8, R241). -/
@[simp, reducible] def headerLen : Nat := 510

end Config

/-- `OOR_POLICY` (R10, D5): what a read does when the decoded index is past the end of its array. -/
inductive OorPolicy where
  /-- The read ends with the status `RangeFault` (the default). -/
  | fault
  /-- The model gives the operation no meaning. -/
  | refuse
deriving DecidableEq, Repr

/-- `SLOT_M1_POLICY` (R10, D6): what a bank-select write with address low nibble 0 or 1 does. -/
inductive SlotM1Policy where
  /-- It arms the mapper and writes no bank register (the default). -/
  | armOnly
  /-- The model gives the operation no meaning. -/
  | refuse
deriving DecidableEq, Repr

/-- Every status an operation can return (R200). `ChecksumMismatch` is no status but a warning bit beside it (R201). -/
inductive Status where
  | ok | busError | notLoaded | rangeFault | resourceLimitExceeded | headerInvalid | truncatedHeader | unsupportedFormat
  | configInvalid
deriving DecidableEq, Repr

namespace Config

/-- The default of `OOR_POLICY` (R10, R117). DESIGN CHOICE of the spec, D5; log 7. -/
def oorPolicy : OorPolicy := .fault

/-- The default of `SLOT_M1_POLICY` (R10, R90). DESIGN CHOICE of the spec, D6; log 8. -/
def slotM1Policy : SlotM1Policy := .armOnly

/-- The default of `STATUS_CODE`: the table of R201, as the 4-bit status field of D1. No rule depends on the numbers. -/
def statusCode : Status → BitVec 4
  | .ok => 0
  | .busError => 1
  | .notLoaded => 2
  | .rangeFault => 3
  | .resourceLimitExceeded => 4
  | .headerInvalid => 5
  | .truncatedHeader => 6
  | .unsupportedFormat => 7
  | .configInvalid => 8

end Config

/-- The configuration record `Config` of R22: the values the decode compares addresses with. -/
structure BusConfig where
  romStart : Addr
  romEnd : Addr
  ramStart : Addr
  ramEnd : Addr
  sramPresent : Bool
  sramStart : Addr
  sramEnd : Addr
deriving DecidableEq, Repr

end Sys2Proof
end

