-- ==== Sys2Proof/Syntax.lean ====
section
/-! DEFINITION. The syntax: one constructor per row of `spec/opcode_table.json` (24 rows, 21 mnemonics; the four rows of
`WR.BANKSEL` are four bit patterns of one class, R85). A row is named after its class (R84 to R86); `a` is the address, `v` the
data byte of a `poke`. The load operand travels beside the word (R81) and is no part of the syntax. -/

namespace Sys2Proof

/-- The operations of the block, one constructor per row of the opcode table. -/
inductive Instr where
  /-- `RD.NOTLOADED`: `peek` while Unloaded (R119). -/
  | rdNotLoaded (a : Addr)
  /-- `RD.FLAT`: flat ROM (R112). -/
  | rdFlat (a : Addr)
  /-- `RD.FIXED`: the fixed window (R113). -/
  | rdFixed (a : Addr)
  /-- `RD.WIN0`: banked window 0, 0x080000..0x0FFFFF (R114). -/
  | rdWin0 (a : Addr)
  /-- `RD.WIN1`: banked window 1, 0x100000..0x17FFFF (R114). -/
  | rdWin1 (a : Addr)
  /-- `RD.WIN2`: banked window 2, 0x180000..0x1FFFFF (R114). -/
  | rdWin2 (a : Addr)
  /-- `RD.WIN3`: banked window 3, 0x200000..0x27FFFF (R114). -/
  | rdWin3 (a : Addr)
  /-- `RD.WIN4`: banked window 4, 0x280000..0x2FFFFF (R114). -/
  | rdWin4 (a : Addr)
  /-- `RD.WIN5`: banked window 5, 0x300000..0x37FFFF (R114). -/
  | rdWin5 (a : Addr)
  /-- `RD.WIN6`: banked window 6, 0x380000..0x3FFFFF (R114). -/
  | rdWin6 (a : Addr)
  /-- `RD.RAM`: working RAM (R115). -/
  | rdRam (a : Addr)
  /-- `RD.SRAM`: save RAM (R116). -/
  | rdSram (a : Addr)
  /-- `RD.UNMAPPED`: no read rule matches (R118). -/
  | rdUnmapped (a : Addr)
  /-- `WR.NOTLOADED`: `poke` while Unloaded (R147). -/
  | wrNotLoaded (a : Addr) (v : Byte)
  /-- `WR.RAM`: working RAM (R142). -/
  | wrRam (a : Addr) (v : Byte)
  /-- `WR.SRAM`: save RAM (R143). -/
  | wrSram (a : Addr) (v : Byte)
  /-- `WR.ARM`: the enable register 0xA130F1 (R144). -/
  | wrArm (a : Addr) (v : Byte)
  /-- `WR.BANKSEL`, pattern 1 of 4: 0xA130F3 (R145, R85). -/
  | wrBankselF3 (a : Addr) (v : Byte)
  /-- `WR.BANKSEL`, pattern 2 of 4: 0xA130F4..0xA130F7 (R145, R85). -/
  | wrBankselF4 (a : Addr) (v : Byte)
  /-- `WR.BANKSEL`, pattern 3 of 4: 0xA130F8..0xA130FF (R145, R85). -/
  | wrBankselF8 (a : Addr) (v : Byte)
  /-- `WR.BANKSEL`, pattern 4 of 4: 0xA13100..0xA131FF (R145, R85). -/
  | wrBanksel131 (a : Addr) (v : Byte)
  /-- `WR.DISCARD`: no write rule matches (R146). -/
  | wrDiscard (a : Addr) (v : Byte)
  /-- `LOAD` (R172). -/
  | load
  /-- `UNLOAD` (R176). -/
  | unload
deriving DecidableEq, Repr

/-- The row `RD.WIN<n>` (R114). -/
def Instr.rdWin (n : Fin 7) (a : Addr) : Instr :=
  match n with
  | 0 => .rdWin0 a
  | 1 => .rdWin1 a
  | 2 => .rdWin2 a
  | 3 => .rdWin3 a
  | 4 => .rdWin4 a
  | 5 => .rdWin5 a
  | 6 => .rdWin6 a

end Sys2Proof
end

