-- ==== Sys2Proof/WellFormed.lean ====
section
/-! DEFINITION. Which terms of the syntax are rows of the opcode table: a row with an address pattern admits the addresses of its
pattern, in the ranges the table's conditions and R85 print; every other row admits every address (R50, R91). -/

namespace Sys2Proof

/-- The address lies in banked window `n` (R114, R28). -/
@[simp] def inWindow (n : Nat) (a : Addr) : Bool :=
  decide (Config.winBase n ≤ a.toNat) && decide (a.toNat < Config.winBase n + Config.winSize)

/-- The address lies in the inclusive range `lo..hi`. -/
@[simp] def inRange (lo hi : Nat) (a : Addr) : Bool := decide (lo ≤ a.toNat) && decide (a.toNat ≤ hi)

/-- The term is a row of the opcode table: its address is one the row's pattern admits (R84, R85). -/
def Instr.wellFormed : Instr → Bool
  | .rdNotLoaded _ => true
  | .rdFlat _ => true
  | .rdFixed a => inRange 0 Config.fixedHi a
  | .rdWin0 a => inWindow 0 a
  | .rdWin1 a => inWindow 1 a
  | .rdWin2 a => inWindow 2 a
  | .rdWin3 a => inWindow 3 a
  | .rdWin4 a => inWindow 4 a
  | .rdWin5 a => inWindow 5 a
  | .rdWin6 a => inWindow 6 a
  | .rdRam _ => true
  | .rdSram _ => true
  | .rdUnmapped _ => true
  | .wrNotLoaded _ _ => true
  | .wrRam _ _ => true
  | .wrSram _ _ => true
  | .wrArm a _ => inRange Config.regArm Config.regArm a
  | .wrBankselF3 a _ => inRange Config.regBankLo Config.regBankLo a
  | .wrBankselF4 a _ => inRange 0xA130F4 0xA130F7 a
  | .wrBankselF8 a _ => inRange 0xA130F8 0xA130FF a
  | .wrBanksel131 a _ => inRange 0xA13100 Config.regBankHi a
  | .wrDiscard _ _ => true
  | .load => true
  | .unload => true

end Sys2Proof
end

