-- ==== Sys2Proof/Decode.lean ====
section
/-! DEFINITION. The decoder and the encoder. The transaction word is packed as R81 says. The rows of one operation share their
bits, so which row an operation is also depends on the block (R87): the decoder reads a `View` of it, the fields the decode of
R84 to R86 compares with, and tests the rows in the priority order. It is total: every 42-bit word is one of the four
operations (R80, R91), and a byte sequence that is no 42-bit word is rejected by name. -/

namespace Sys2Proof

/-! ### The transaction word -/

/-- `T = (op << 40) | (addr << 8) | data` (R81). -/
def packT (op : BitVec 2) (a : Addr) (d : Byte) : TWord := op ++ a ++ d

/-- `T[41:40]`, the operation: 0 `peek`, 1 `poke`, 2 `load`, 3 `unload` (R81). -/
def opT (w : TWord) : BitVec 2 := w.extractLsb' 40 2

/-- `T[39:8]`, the address (R81). -/
def addrT (w : TWord) : Addr := w.extractLsb' 8 32

/-- `T[7:0]`, the write value (R81). -/
def dataT (w : TWord) : Byte := w.extractLsb' 0 8

/-! ### Address fields of the pattern rows (R82) -/

/-- `a[31:22]`: must be 0 for an address of 0x000000..0x3FFFFF (R82). -/
def addrHi (a : Addr) : BitVec 10 := a.extractLsb' 22 10

/-- `a[21:19]`: 0 selects the fixed window, 1 to 7 the banked window `wsel - 1` (R82). -/
def addrWsel (a : Addr) : BitVec 3 := a.extractLsb' 19 3

/-- `a[18:0]`: the offset inside a window or slice (R82). -/
def addrOff (a : Addr) : BitVec 19 := a.extractLsb' 0 19

/-- Pattern 1 of `WR.BANKSEL`: `a = 0x00A130F3` (R85). -/
def bankselF3Pattern (a : Addr) : Bool := a == 0x00A130F3#32

/-- Pattern 2 of `WR.BANKSEL`: `a & 0xFFFFFFFC = 0x00A130F4` (R85). -/
def bankselF4Pattern (a : Addr) : Bool := (a &&& 0xFFFFFFFC#32) == 0x00A130F4#32

/-- Pattern 3 of `WR.BANKSEL`: `a & 0xFFFFFFF8 = 0x00A130F8` (R85). -/
def bankselF8Pattern (a : Addr) : Bool := (a &&& 0xFFFFFFF8#32) == 0x00A130F8#32

/-- Pattern 4 of `WR.BANKSEL`: `a & 0xFFFFFF00 = 0x00A13100` (R85). -/
def banksel131Pattern (a : Addr) : Bool := (a &&& 0xFFFFFF00#32) == 0x00A13100#32

/-! ### What the decode reads of the block -/

/-- The fields of the block that select a row (R84 to R87). `cfg` is `none` where it has no value (R35). -/
structure View where
  loaded : Bool
  capable : Bool
  armed : Bool
  cfg : Option BusConfig
deriving DecidableEq, Repr

/-- `banked = S.capable && S.armed` (R16, R51). -/
def View.banked (v : View) : Bool := v.capable && v.armed

/-- `romStart ≤ a ≤ romEnd`, on mathematical integers (R112, R11). -/
def View.inFlat (v : View) (a : Addr) : Bool :=
  match v.cfg with
  | some c => decide (c.romStart.toNat ≤ a.toNat) && decide (a.toNat ≤ c.romEnd.toNat)
  | none => false

/-- `ramStart ≤ a ≤ ramEnd`: the RAM read window (R115). -/
def View.inRamRead (v : View) (a : Addr) : Bool :=
  match v.cfg with
  | some c => decide (c.ramStart.toNat ≤ a.toNat) && decide (a.toNat ≤ c.ramEnd.toNat)
  | none => false

/-- `sramPresent` and `sramStart ≤ a ≤ sramEnd`: the save-RAM read window (R116). -/
def View.inSramRead (v : View) (a : Addr) : Bool :=
  match v.cfg with
  | some c => c.sramPresent && (decide (c.sramStart.toNat ≤ a.toNat) && decide (a.toNat ≤ c.sramEnd.toNat))
  | none => false

/-- `ramStart ≤ a` and `a + 2 ≤ ramEnd`: the RAM write window (R85, R142, D7). -/
def View.inRamWrite (v : View) (a : Addr) : Bool :=
  match v.cfg with
  | some c => decide (c.ramStart.toNat ≤ a.toNat) && decide (a.toNat + Config.writeTrim ≤ c.ramEnd.toNat)
  | none => false

/-- `sramPresent`, `sramStart ≤ a` and `a + 2 ≤ sramEnd`: the save-RAM write window (R85, R143, D7). -/
def View.inSramWrite (v : View) (a : Addr) : Bool :=
  match v.cfg with
  | some c =>
    c.sramPresent && (decide (c.sramStart.toNat ≤ a.toNat) && decide (a.toNat + Config.writeTrim ≤ c.sramEnd.toNat))
  | none => false

/-! ### The decoder -/

/-- The row of a banked read of 0x000000..0x3FFFFF, by `wsel` (R82, R84 orders 2 and 3). -/
def windowRow (wsel : BitVec 3) (a : Addr) : Instr :=
  match wsel.toNat with
  | 0 => .rdFixed a
  | 1 => .rdWin0 a
  | 2 => .rdWin1 a
  | 3 => .rdWin2 a
  | 4 => .rdWin3 a
  | 5 => .rdWin4 a
  | 6 => .rdWin5 a
  | _ => .rdWin6 a

/-- The row of a `peek`: the classes in the order of R84, after the Unloaded test of R86. -/
def readRow (v : View) (a : Addr) : Instr :=
  if !v.loaded then .rdNotLoaded a
  else if !v.banked && v.inFlat a then .rdFlat a
  else if v.banked && addrHi a == 0#10 then windowRow (addrWsel a) a
  else if v.inRamRead a then .rdRam a
  else if v.inSramRead a then .rdSram a
  else .rdUnmapped a

/-- The row of a `poke`: the classes in the order of R85, after the Unloaded test of R86. -/
def writeRow (v : View) (a : Addr) (d : Byte) : Instr :=
  if !v.loaded then .wrNotLoaded a d
  else if v.inRamWrite a then .wrRam a d
  else if v.inSramWrite a then .wrSram a d
  else if a == 0x00A130F1#32 then .wrArm a d
  else if v.capable && bankselF3Pattern a then .wrBankselF3 a d
  else if v.capable && bankselF4Pattern a then .wrBankselF4 a d
  else if v.capable && bankselF8Pattern a then .wrBankselF8 a d
  else if v.capable && banksel131Pattern a then .wrBanksel131 a d
  else .wrDiscard a d

/-- The instruction a transaction word is, in a block seen as `v` (R80, R81, R84 to R86). Fields an operation does not use are
ignored (R91). -/
def decodeIn (v : View) (w : TWord) : Instr :=
  match (opT w).toNat with
  | 0 => readRow v (addrT w)
  | 1 => writeRow v (addrT w) (dataT w)
  | 2 => .load
  | _ => .unload

/-- Why a byte sequence holds no transaction word. -/
inductive DecodeError where
  /-- Fewer than the six bytes of a 42-bit word. Safe: nothing runs. -/
  | truncated
  /-- A bit above bit 41 is set: no transaction word (R81). Safe: nothing runs. -/
  | bitsAbove41
deriving DecidableEq, Repr

/-- The low `k` bytes of a number, least significant first. -/
def bytesOf : Nat → Nat → List Byte
  | 0, _ => []
  | k + 1, w => BitVec.ofNat 8 w :: bytesOf k (w / 256)

/-- Decode the transaction word at the head of a byte sequence: six bytes, least significant first. DESIGN CHOICE (log 14): the
spec gives `T` no byte order. -/
def decodeBytes (v : View) : List Byte → Except DecodeError (Instr × List Byte)
  | b0 :: b1 :: b2 :: b3 :: b4 :: b5 :: rest =>
    if b5.toNat < 4 then
      .ok (decodeIn v (BitVec.ofNat 42 (b0.toNat + 2 ^ 8 * b1.toNat + 2 ^ 16 * b2.toNat + 2 ^ 24 * b3.toNat
        + 2 ^ 32 * b4.toNat + 2 ^ 40 * b5.toNat)), rest)
    else .error .bitsAbove41
  | _ => .error .truncated

/-- The view in which a row is told by its bit pattern alone (R84, R85: the rows marked "pattern"): the block is Loaded, the
mapper capable and armed, and no configured window claims an address. -/
def View.patternOnly : View := { loaded := true, capable := true, armed := true, cfg := none }

/-- The instruction the decoder reads from the bits `w` of a row, numbered as the opcode table numbers them. A bare word does not
tell the rows of one operation apart (R87); this is the row its bit pattern names (log 1). -/
def decodeTableWord (nbits w : Nat) : Option Instr :=
  match decodeBytes View.patternOnly (bytesOf 6 (w % 2 ^ nbits)) with
  | .ok (i, _) => some i
  | .error _ => none

/-! ### The encoder -/

/-- The transaction word of a row: the operation of its format, its address and its data; fields the operation does not use are
0 (R81). -/
def encode : Instr → TWord
  | .rdNotLoaded a => packT 0 a 0
  | .rdFlat a => packT 0 a 0
  | .rdFixed a => packT 0 a 0
  | .rdWin0 a => packT 0 a 0
  | .rdWin1 a => packT 0 a 0
  | .rdWin2 a => packT 0 a 0
  | .rdWin3 a => packT 0 a 0
  | .rdWin4 a => packT 0 a 0
  | .rdWin5 a => packT 0 a 0
  | .rdWin6 a => packT 0 a 0
  | .rdRam a => packT 0 a 0
  | .rdSram a => packT 0 a 0
  | .rdUnmapped a => packT 0 a 0
  | .wrNotLoaded a d => packT 1 a d
  | .wrRam a d => packT 1 a d
  | .wrSram a d => packT 1 a d
  | .wrArm a d => packT 1 a d
  | .wrBankselF3 a d => packT 1 a d
  | .wrBankselF4 a d => packT 1 a d
  | .wrBankselF8 a d => packT 1 a d
  | .wrBanksel131 a d => packT 1 a d
  | .wrDiscard a d => packT 1 a d
  | .load => packT 2 0 0
  | .unload => packT 3 0 0

/-- The bytes of a row's transaction word, as `decodeBytes` reads them. -/
def encodeBytes (i : Instr) : List Byte := bytesOf 6 (encode i).toNat

/-- A row of the opcode table as the table writes it: `T & mask = match`. -/
structure RowPattern where
  matchBits : TWord
  mask : TWord
deriving DecidableEq, Repr

/-- The `match` and `mask` of each row, copied from `spec/opcode_table.json`. -/
def rowPattern : Instr → RowPattern
  | .rdNotLoaded _ => ⟨0x00000000000, 0x30000000000⟩
  | .rdFlat _ => ⟨0x00000000000, 0x30000000000⟩
  | .rdFixed _ => ⟨0x00000000000, 0x3FFF8000000⟩
  | .rdWin0 _ => ⟨0x00008000000, 0x3FFF8000000⟩
  | .rdWin1 _ => ⟨0x00010000000, 0x3FFF8000000⟩
  | .rdWin2 _ => ⟨0x00018000000, 0x3FFF8000000⟩
  | .rdWin3 _ => ⟨0x00020000000, 0x3FFF8000000⟩
  | .rdWin4 _ => ⟨0x00028000000, 0x3FFF8000000⟩
  | .rdWin5 _ => ⟨0x00030000000, 0x3FFF8000000⟩
  | .rdWin6 _ => ⟨0x00038000000, 0x3FFF8000000⟩
  | .rdRam _ => ⟨0x00000000000, 0x30000000000⟩
  | .rdSram _ => ⟨0x00000000000, 0x30000000000⟩
  | .rdUnmapped _ => ⟨0x00000000000, 0x30000000000⟩
  | .wrNotLoaded _ _ => ⟨0x10000000000, 0x30000000000⟩
  | .wrRam _ _ => ⟨0x10000000000, 0x30000000000⟩
  | .wrSram _ _ => ⟨0x10000000000, 0x30000000000⟩
  | .wrArm _ _ => ⟨0x100A130F100, 0x3FFFFFFFF00⟩
  | .wrBankselF3 _ _ => ⟨0x100A130F300, 0x3FFFFFFFF00⟩
  | .wrBankselF4 _ _ => ⟨0x100A130F400, 0x3FFFFFFFC00⟩
  | .wrBankselF8 _ _ => ⟨0x100A130F800, 0x3FFFFFFF800⟩
  | .wrBanksel131 _ _ => ⟨0x100A1310000, 0x3FFFFFF0000⟩
  | .wrDiscard _ _ => ⟨0x10000000000, 0x30000000000⟩
  | .load => ⟨0x20000000000, 0x30000000000⟩
  | .unload => ⟨0x30000000000, 0x30000000000⟩

/-! ### When a row is the one in force -/

/-- The read address is claimed by a ROM row: priority 1, 2 or 3 of the read map (R51). -/
def View.romClaims (v : View) (a : Addr) : Bool :=
  (!v.banked && v.inFlat a) || (v.banked && decide (a.toNat ≤ Config.winTop))

/-- The write address is claimed by a RAM row: priority 1 or 2 of the write map (R53). -/
def View.ramClaims (v : View) (a : Addr) : Bool := v.inRamWrite a || v.inSramWrite a

/-- The row's condition holds for its operands in a block seen as `v`: the column "condition" of the opcode table, with the
address ranges of its pattern. -/
def rowHolds (v : View) : Instr → Bool
  | .rdNotLoaded _ => !v.loaded
  | .rdFlat a => v.loaded && !v.banked && v.inFlat a
  | .rdFixed a => v.loaded && v.banked && inRange 0 Config.fixedHi a
  | .rdWin0 a => v.loaded && v.banked && inWindow 0 a
  | .rdWin1 a => v.loaded && v.banked && inWindow 1 a
  | .rdWin2 a => v.loaded && v.banked && inWindow 2 a
  | .rdWin3 a => v.loaded && v.banked && inWindow 3 a
  | .rdWin4 a => v.loaded && v.banked && inWindow 4 a
  | .rdWin5 a => v.loaded && v.banked && inWindow 5 a
  | .rdWin6 a => v.loaded && v.banked && inWindow 6 a
  | .rdRam a => v.loaded && v.inRamRead a && !v.romClaims a
  | .rdSram a => v.loaded && v.inSramRead a && !(v.romClaims a || v.inRamRead a)
  | .rdUnmapped a => v.loaded && !(v.romClaims a || v.inRamRead a || v.inSramRead a)
  | .wrNotLoaded _ _ => !v.loaded
  | .wrRam a _ => v.loaded && v.inRamWrite a
  | .wrSram a _ => v.loaded && v.inSramWrite a && !v.inRamWrite a
  | .wrArm a _ => v.loaded && inRange Config.regArm Config.regArm a && !v.ramClaims a
  | .wrBankselF3 a _ => v.loaded && v.capable && inRange Config.regBankLo Config.regBankLo a && !v.ramClaims a
  | .wrBankselF4 a _ => v.loaded && v.capable && inRange 0xA130F4 0xA130F7 a && !v.ramClaims a
  | .wrBankselF8 a _ => v.loaded && v.capable && inRange 0xA130F8 0xA130FF a && !v.ramClaims a
  | .wrBanksel131 a _ => v.loaded && v.capable && inRange 0xA13100 Config.regBankHi a && !v.ramClaims a
  | .wrDiscard a _ =>
    v.loaded && !(v.ramClaims a || inRange Config.regArm Config.regArm a
      || (v.capable && inRange Config.regBankLo Config.regBankHi a))
  | .load => true
  | .unload => true

end Sys2Proof
end

