-- ==== Sys2Proof/Machine/State.lean ====
section
/-! DEFINITION. The machine's state: the record `S` of R20 (`Block`), and the model's interface to the agents that issue
operations (`issued`, `operand`, `response`). All plain data. -/

namespace Sys2Proof.Machine

/-- One array of bytes behind the bus (R23 to R25): its length and its bytes that are not 0, indices strictly rising. An index
inside the length that is not listed reads 0: the content of the RAM arrays after `load` (R24, R25), and for the ROM image only
a way of writing its zero bytes down (log 5). An index at or past the length does not exist (R13). -/
structure Memory where
  len : Nat
  cells : List Host.Cell
deriving DecidableEq, Repr

/-- The array of length 0 (R35). -/
def Memory.empty : Memory := { len := 0, cells := [] }

/-- The canonical form: indices strictly rising, each inside the length, no listed byte equal to what an unlisted index reads
as. -/
abbrev Memory.wf (m : Memory) : Prop :=
  m.cells.Pairwise (fun x y => x.1 < y.1) ∧ ∀ x ∈ m.cells, x.1 < m.len ∧ x.2 ≠ 0#8

/-- The operand of a block-level `load` (R171). -/
structure LoadRequest where
  romStart : Addr
  romEnd : Addr
  ramStart : Addr
  ramEnd : Addr
  /-- The header's save-RAM flag field, its first byte. -/
  sramFlag0 : Byte
  /-- The header's save-RAM flag field, its second byte. -/
  sramFlag1 : Byte
  sramStart : Addr
  sramEnd : Addr
  rom : Memory
deriving DecidableEq, Repr

/-- The operand of a host-level `load(path)` (R80, R246): the path's characters, and the cartridge image file. The loader reads the
file twice (R244): `bytes` is what the first read saw, `reread` what the second returned, equal when file reads are consistent
(U15, log 11). -/
structure LoadFile where
  path : List Char
  bytes : Memory
  reread : Memory
deriving DecidableEq, Repr

/-- The operand of a `load`, at block level or at host level (R80). -/
inductive LoadOperand where
  | request (r : LoadRequest)
  | file (f : LoadFile)
deriving DecidableEq, Repr

/-- An operation as an agent issues it: its transaction word and the load operand that travels beside it (R81). Operations other
than `load` ignore the operand. -/
structure Transaction where
  word : TWord
  operand : LoadOperand
deriving DecidableEq, Repr

/-- What an operation returns (R14, R80): its status (`unload` has none, R176), the byte of a successful `peek`, and the warning bit
`ChecksumMismatch` of a host-level `load` (R201). -/
structure Response where
  status : Option Status
  value : Option Byte
  warn : Bool
deriving DecidableEq, Repr

/-- The state `S` of the block (R20). -/
structure Block where
  /-- `S.loaded` (R21). -/
  loaded : Bool
  /-- `S.cfg` (R22); `none` where it has no value (R35, R176: "header null"). -/
  cfg : Option BusConfig
  /-- `S.rom` (R23). -/
  rom : Memory
  /-- `S.ram` (R24). -/
  ram : Memory
  /-- `S.sram` (R25). -/
  sram : Memory
  /-- `S.capable` (R26). -/
  capable : Bool
  /-- `S.armed` (R27). -/
  armed : Bool
  /-- `S.bank[0..6]` (R28). -/
  bank : Vector Byte 7
deriving DecidableEq, Repr

/-- The whole machine: the block, and the model's interface to the agents (log 2). -/
structure State where
  /-- The block's state `S` (R20). -/
  block : Block
  /-- The operations the agents have issued and that have not begun, oldest first (R61). -/
  issued : List Transaction
  /-- The load operand beside the operation being executed (R81). -/
  operand : LoadOperand
  /-- What the last completed operation returned (R14). -/
  response : Option Response
deriving DecidableEq, Repr

/-- Why the machine stops with a fault. -/
inductive Fault where
  /-- Raised by a RAM or save-RAM store whose index is not inside its array. Safe: R148 shows that no reachable state raises it; it
  stops only in states that break the invariant R36 (b) (log 9). -/
  | writeOutsideArray
deriving DecidableEq, Repr

/-- Why an operation has no meaning. -/
inductive Refusal where
  /-- Raised by exec for an instruction that has no meaning in the model. Safe: nothing runs. No arm raises it. -/
  | notModelled (mnemonic : String)
  /-- Raised by a read past its array under `OOR_POLICY = refuse` (R10, R117). Safe. Not raised under the default. -/
  | readOutsideArray
  /-- Raised by a bank-select write of slot -1 under `SLOT_M1_POLICY = refuse` (R10, R90). Safe. Not raised under the default. -/
  | slotMinusOne
deriving DecidableEq, Repr

/-- The all-zero load request with an empty image: what stands at the operand port at reset. DESIGN CHOICE (log 6). -/
def LoadRequest.zero : LoadRequest :=
  { romStart := 0, romEnd := 0, ramStart := 0, ramEnd := 0, sramFlag0 := 0, sramFlag1 := 0, sramStart := 0, sramEnd := 0,
    rom := Memory.empty }

/-- The block after power-on reset (R35, R230): the state that `unload` leaves. -/
def Block.reset : Block :=
  { loaded := false, cfg := none, rom := Memory.empty, ram := Memory.empty, sram := Memory.empty, capable := false,
    armed := false, bank := #v[0#8, 0#8, 0#8, 0#8, 0#8, 0#8, 0#8] }

/-- The machine after reset: the block as R35 says; no operation issued and none returned (log 2). -/
def State.reset : State :=
  { block := Block.reset, issued := [], operand := .request LoadRequest.zero, response := none }

end Sys2Proof.Machine
end

