-- ==== Sys2Proof/Machine/Flags.lean ====
section
/-! DEFINITION. The mapper's two flags (R26, R27), the condition they form (R16), and the view of the block that the decoder
reads. -/

namespace Sys2Proof.Machine

/-- `len(rom) > 0x400000`: whether a cartridge with this image is capable (R26, R175). The test is strict. -/
def capableOf (rom : Memory) : Bool := decide (Config.capableThreshold < rom.len)

/-- `banked = S.capable && S.armed`: the mapper is active (R16, R111). -/
def Block.banked (b : Block) : Bool := b.capable && b.armed

/-- `S.armed <- true` (R144, R145). -/
def Block.arm (b : Block) : Block := { b with armed := true }

/-- What the decoder reads of the block (R84 to R87). -/
def Block.view (b : Block) : View := { loaded := b.loaded, capable := b.capable, armed := b.armed, cfg := b.cfg }

/-- What the decoder reads of the machine. -/
def State.view (s : State) : View := s.block.view

end Sys2Proof.Machine
end

