-- ==== Sys2Proof/Machine/Operands.lean ====
section
/-! DEFINITION. The operand forms: the values an address stands for. The configured bounds as mathematical integers (R11, D7), the
bank-select slot (R88), the banked ROM index (R83, R114), the decode targets (R15), and the save-RAM flag of a load operand
(R173). -/

namespace Sys2Proof.Machine

/-- `cfg.romStart`, as a mathematical integer; 0 where `cfg` has no value, which no rule reads (R35). -/
def Block.romStart (b : Block) : Nat := match b.cfg with | some c => c.romStart.toNat | none => 0

/-- `cfg.ramStart`, as a mathematical integer; 0 where `cfg` has no value, which no rule reads (R35). -/
def Block.ramStart (b : Block) : Nat := match b.cfg with | some c => c.ramStart.toNat | none => 0

/-- `cfg.sramStart`, as a mathematical integer; 0 where `cfg` has no value, which no rule reads (R35). -/
def Block.sramStart (b : Block) : Nat := match b.cfg with | some c => c.sramStart.toNat | none => 0

/-- `slot = ((a & 0xF) >> 1) - 1`, an integer in -1..6 (R88). -/
def bankSlot (a : Addr) : Int := (((a.toNat &&& 0xF) >>> 1 : Nat) : Int) - 1

/-- `S.bank[k]`; a number past 6 names no register and reads 0, which no rule asks for (R28). -/
def Block.bankReg (b : Block) (k : Nat) : Byte := if h : k < 7 then b.bank[k] else 0#8

/-- The ROM index of a banked-window read with bank value `b` (R114): slice `b` of the image, or the address itself. -/
def windowIndex (b : Byte) (a : Addr) : Nat :=
  if b ≠ 0#8 then b.toNat * Config.winSize + (addrOff a).toNat else a.toNat

/-- `RdTarget`: what a read address resolves to (R15). -/
inductive RdTarget where
  | rom (i : Nat) | ram (i : Nat) | sram (i : Nat) | unmapped
deriving DecidableEq, Repr

/-- `WrTarget`: what a write address resolves to (R15); `k` is the slot, -1..6. -/
inductive WrTarget where
  | ram (i : Nat) | sram (i : Nat) | arm | banksel (k : Int) | discard
deriving DecidableEq, Repr

/-- `SramPresent(f)` (R173): the flag field is "RA" (0x52 0x41), or its first byte is 0xF8. -/
def sramPresentOf (f0 f1 : Byte) : Bool := (f0 == 0x52#8 && f1 == 0x41#8) || f0 == 0xF8#8

end Sys2Proof.Machine
end

