-- ==== Sys2Proof/Machine/Ops.lean ====
section
/-! DEFINITION. The named operations over the arrays and registers; how an operation ends with a status (R14, R205: the block has no
other exception); and the two algorithms `peek` (R110, R111, R117) and `poke` (R140, R141) as the spec writes them. Each takes the
policy of R10 it depends on as an argument. -/

namespace Sys2Proof.Machine

/-- The outcome of an operation. -/
abbrev Out := Host.Outcome State Fault Refusal

/-! ### Arrays -/

/-- The listed byte at index `i`, or 0. -/
def lookupCell (i : Nat) : List Host.Cell → Byte
  | [] => 0#8
  | (j, w) :: t => if i = j then w else lookupCell i t

/-- List `v` at index `i`, or unlist `i` when `v` is 0, keeping the indices rising. -/
def storeCell (i : Nat) (v : Byte) : List Host.Cell → List Host.Cell
  | [] => if v = 0#8 then [] else [(i, v)]
  | (j, w) :: t =>
    if i < j then (if v = 0#8 then (j, w) :: t else (i, v) :: (j, w) :: t)
    else if i = j then (if v = 0#8 then t else (i, v) :: t)
    else (j, w) :: storeCell i v t

/-- `MemRead(region, i)` where the index exists (R13): the byte, or `none` at or past the length. -/
def Memory.read (m : Memory) (i : Nat) : Option Byte := if i < m.len then some (lookupCell i m.cells) else none

/-- `MemWrite(region, i, v)` (R13), for an index inside the array (R148). -/
def Memory.write (m : Memory) (i : Nat) (v : Byte) : Memory := { m with cells := storeCell i v m.cells }

/-- An array of `n` bytes, all 0x00 (R24, R25, R172). -/
def Memory.zeros (n : Nat) : Memory := { len := n, cells := [] }

/-! ### Registers -/

/-- `S.bank[k] <- v` (R28): all 8 bits are stored. A number past 6 names no register. -/
def Block.setBank (b : Block) (k : Nat) (v : Byte) : Block :=
  if h : k < 7 then { b with bank := b.bank.set k v h } else b

/-- `S.ram[i] <- v` (R142). -/
def Block.writeRam (b : Block) (i : Nat) (v : Byte) : Block := { b with ram := b.ram.write i v }

/-- `S.sram[i] <- v` (R143). -/
def Block.writeSram (b : Block) (i : Nat) (v : Byte) : Block := { b with sram := b.sram.write i v }

/-! ### Ending an operation -/

/-- The state in which an operation has returned `r` (R14). -/
def State.respond (s : State) (r : Response) : State := { s with response := some r }

/-- The state with the block replaced. -/
def State.withBlock (s : State) (b : Block) : State := { s with block := b }

/-- A bare status, with no byte and no warning. -/
def Response.ofStatus (st : Status) : Response := { status := some st, value := none, warn := false }

/-- `(OK, v)`: what a successful `peek` returns (R80, R110). -/
def Response.ofByte (v : Byte) : Response := { status := some .ok, value := some v, warn := false }

/-- `raise <Status>` (R14, R205): the operation ends with that status, no value, and no further state change. -/
def raiseStatus (st : Status) (s : State) : Out := .next (s.respond (Response.ofStatus st))

/-- `return OK` of a `poke` or `load`, with the block as the operation leaves it. -/
def finish (b : Block) (s : State) : Out := .next ((s.withBlock b).respond (Response.ofStatus .ok))

/-! ### The read path -/

/-- `Fetch(region, i)` (R117): the byte, or what `OOR_POLICY` says past the end of the array. -/
def fetch (pol : OorPolicy) (m : Memory) (i : Nat) (s : State) : Out :=
  match m.read i with
  | some v => .next (s.respond (Response.ofByte v))
  | none =>
    match pol with
    | .fault => raiseStatus .rangeFault s
    | .refuse => .refused .readOutsideArray

/-- `RdDecode(S, a)` (R111). -/
def rdDecode (b : Block) (a : Addr) : RdTarget :=
  let n := (a.toNat >>> 19) - 1
  if !b.banked && b.view.inFlat a then .rom (a.toNat - b.romStart)
  else if b.banked && inRange 0 0x07FFFF a then .rom a.toNat
  else if b.banked && inRange 0x080000 0x3FFFFF a then
    if b.bankReg n ≠ 0#8 then .rom ((b.bankReg n).toNat * 0x80000 + (a.toNat &&& 0x7FFFF)) else .rom a.toNat
  else if b.view.inRamRead a then .ram (a.toNat - b.ramStart)
  else if b.view.inSramRead a then .sram (a.toNat - b.sramStart)
  else .unmapped

/-- `peek(a)` (R110). -/
def peek (pol : OorPolicy) (a : Addr) (s : State) : Out :=
  if !s.block.loaded then raiseStatus .notLoaded s
  else
    match rdDecode s.block a with
    | .unmapped => raiseStatus .busError s
    | .rom i => fetch pol s.block.rom i s
    | .ram i => fetch pol s.block.ram i s
    | .sram i => fetch pol s.block.sram i s

/-- The read of banked window `n` (R114): the index comes from the window's own bank register. -/
def windowRead (pol : OorPolicy) (n : Nat) (a : Addr) (s : State) : Out :=
  fetch pol s.block.rom (windowIndex (s.block.bankReg n) a) s

/-! ### The write path -/

/-- `MemWrite(S.ram, i, v)` and `return OK` (R142). Every store of the spec has its index inside the array (R148); outside it the
model stops (log 9). -/
def storeRam (i : Nat) (v : Byte) (s : State) : Out :=
  if i < s.block.ram.len then finish (s.block.writeRam i v) s else .fault .writeOutsideArray

/-- `MemWrite(S.sram, i, v)` and `return OK` (R143), as `storeRam`. -/
def storeSram (i : Nat) (v : Byte) (s : State) : Out :=
  if i < s.block.sram.len then finish (s.block.writeSram i v) s else .fault .writeOutsideArray

/-- The effect of `WR.ARM` (R144): the data byte is not looked at. -/
def armMapper (s : State) : Out := finish s.block.arm s

/-- The effect of `WR.BANKSEL` on slot `k` (R145): arm, and write the bank register if the slot names one; slot -1 goes by
`SLOT_M1_POLICY` (R90). -/
def bankSelect (pol : SlotM1Policy) (k : Int) (v : Byte) (s : State) : Out :=
  if 0 ≤ k ∧ k ≤ 6 then finish (s.block.arm.setBank k.toNat v) s
  else
    match pol with
    | .armOnly => finish s.block.arm s
    | .refuse => .refused .slotMinusOne

/-- `WrDecode(S, a)` (R141). -/
def wrDecode (b : Block) (a : Addr) : WrTarget :=
  if b.view.inRamWrite a then .ram (a.toNat - b.ramStart)
  else if b.view.inSramWrite a then .sram (a.toNat - b.sramStart)
  else if a.toNat = 0x00A130F1 then .arm
  else if inRange 0x00A130F3 0x00A131FF a && b.capable then .banksel (bankSlot a)
  else .discard

/-- `poke(a, v)` (R140). -/
def poke (pol : SlotM1Policy) (a : Addr) (v : Byte) (s : State) : Out :=
  if !s.block.loaded then raiseStatus .notLoaded s
  else
    match wrDecode s.block a with
    | .ram i => storeRam i v s
    | .sram i => storeSram i v s
    | .arm => armMapper s
    | .banksel k => bankSelect pol k v s
    | .discard => raiseStatus .ok s

/-! ### Issuing an operation -/

/-- The state in which transaction `t` has been taken off the queue and begins, `rest` still to come. -/
def State.accept (s : State) (t : Transaction) (rest : List Transaction) : State :=
  { s with issued := rest, operand := t.operand }

/-- The transaction of a bare word: the load operand is the one that stands at the port (log 6). -/
def State.transactionOf (s : State) (w : Nat) : Transaction := { word := BitVec.ofNat 42 w, operand := s.operand }

end Sys2Proof.Machine
end

