-- ==== Sys2Proof/Machine/Load.lean ====
section
/-! DEFINITION. The block-level lifecycle operations (R170 to R180): what `unload` leaves, which load requests are refused, and what a
successful `load` commits. -/

namespace Sys2Proof.Machine

/-- `unload()` (R176): every field at its initial state. -/
def Block.unload (b : Block) : Block :=
  { b with
    loaded := false, cfg := none, rom := Memory.empty, ram := Memory.empty, sram := Memory.empty, capable := false,
    armed := false, bank := #v[0#8, 0#8, 0#8, 0#8, 0#8, 0#8, 0#8] }

/-- `ramEnd - ramStart`, used once the bounds are in order (R172, R178). -/
def LoadRequest.ramSize (r : LoadRequest) : Nat := r.ramEnd.toNat - r.ramStart.toNat

/-- Whether the request's flag field announces save RAM (R173). -/
def LoadRequest.present (r : LoadRequest) : Bool := sramPresentOf r.sramFlag0 r.sramFlag1

/-- The save-RAM size: `sramEnd - sramStart` when present, else 0 (R172). -/
def LoadRequest.sramSize (r : LoadRequest) : Nat := if r.present then r.sramEnd.toNat - r.sramStart.toNat else 0

/-- The tests of `load`, in the order of R172 (R204): the first that fails gives the status, `ok` if none does. -/
def loadStatus (r : LoadRequest) : Status :=
  if r.romEnd.toNat < r.romStart.toNat then .configInvalid
  else if r.rom.len < r.romEnd.toNat - r.romStart.toNat then .headerInvalid
  else if r.ramEnd.toNat < r.ramStart.toNat then .configInvalid
  else if Config.regionMax < r.ramSize then .resourceLimitExceeded
  else if r.present && decide (r.sramEnd.toNat < r.sramStart.toNat) then .configInvalid
  else if Config.regionMax < r.sramSize then .resourceLimitExceeded
  else .ok

/-- The configuration that a successful `load` stores (R22, R172). -/
def LoadRequest.config (r : LoadRequest) : BusConfig :=
  { romStart := r.romStart, romEnd := r.romEnd, ramStart := r.ramStart, ramEnd := r.ramEnd, sramPresent := r.present,
    sramStart := r.sramStart, sramEnd := r.sramEnd }

/-- The commit of a successful `load` (R172): configuration, image, zeroed RAM and save RAM, capability, mapper reset. -/
def Block.commit (b : Block) (r : LoadRequest) : Block :=
  { b with
    loaded := true, cfg := some r.config, rom := r.rom, ram := Memory.zeros r.ramSize, sram := Memory.zeros r.sramSize,
    capable := capableOf r.rom, armed := false, bank := #v[0#8, 0#8, 0#8, 0#8, 0#8, 0#8, 0#8] }

/-- `load(req)` from its second line on (R172): the tests, then the commit or the failure status. `warn` is the warning that the
host-level `load` reports beside the status (R246). -/
def loadTested (r : LoadRequest) (warn : Bool) (s : State) : Out :=
  let answer : Response := { status := some (loadStatus r), value := none, warn := warn }
  if loadStatus r = .ok then .next ((s.withBlock (s.block.commit r)).respond answer) else .next (s.respond answer)

/-- `load(req)` (R172): `unload()` unconditionally, then the tests and the commit. -/
def loadBlock (r : LoadRequest) (s : State) : Out := loadTested r false (s.withBlock s.block.unload)

end Sys2Proof.Machine
end

