-- ==== Sys2Proof/Machine/Loader.lean ====
section
/-! DEFINITION. The host's loader (R240 to R247): from a path and a cartridge image file to a load request. These are host rules, in
scope by R6; they change the block only through the block-level `load`. -/

namespace Sys2Proof.Machine

/-! ### File bytes -/

/-- Byte `i` of a file; asked only inside its length. -/
def Memory.byteAt (m : Memory) (i : Nat) : Byte := (m.read i).getD 0#8

/-- The `n` bytes of a file from offset `off`. -/
def Memory.slice (m : Memory) (off n : Nat) : List Byte := (List.range n).map (fun k => m.byteAt (off + k))

/-- The list of the bytes that are not 0, from index `i` on. -/
def cellsOf (i : Nat) : List Byte → List Host.Cell
  | [] => []
  | v :: t => if v = 0#8 then cellsOf (i + 1) t else (i, v) :: cellsOf (i + 1) t

/-- The array that holds these bytes in order. -/
def Memory.ofBytes (l : List Byte) : Memory := { len := l.length, cells := cellsOf 0 l }

/-- The first `n` bytes. -/
def Memory.take (m : Memory) (n : Nat) : Memory :=
  { len := min n m.len, cells := m.cells.filter (fun x => decide (x.1 < n)) }

/-- The bytes from offset `n` on. -/
def Memory.drop (m : Memory) (n : Nat) : Memory :=
  { len := m.len - n, cells := (m.cells.filter (fun x => decide (n ≤ x.1))).map (fun x => (x.1 - n, x.2)) }

/-- One array after the other. -/
def Memory.append (m k : Memory) : Memory :=
  { len := m.len + k.len, cells := m.cells ++ k.cells.map (fun x => (m.len + x.1, x.2)) }

/-- Padded with zero bytes up to length `n` (R244); unchanged if it is that long. -/
def Memory.padTo (m : Memory) (n : Nat) : Memory := { m with len := max m.len n }

/-! ### The header (R241, R242) -/

/-- The cartridge header, field by field in the order of R241. Byte strings are copied verbatim, the vector table too (C5). -/
structure Header where
  vectorTable : List Byte
  consoleName : List Byte
  copyright : List Byte
  domesticName : List Byte
  overseasName : List Byte
  kind : List Byte
  productCode : List Byte
  checksum : BitVec 16
  ioSupport : List Byte
  romStart : Addr
  romEnd : Addr
  ramStart : Addr
  ramEnd : Addr
  sramFlag : List Byte
  reserved : List Byte
  sramStart : Addr
  sramEnd : Addr
  modem : List Byte
  memo : List Byte
  country : List Byte
deriving DecidableEq, Repr

/-- The field widths of R241. -/
abbrev Header.wf (h : Header) : Prop :=
  h.vectorTable.length = 256 ∧ h.consoleName.length = 16 ∧ h.copyright.length = 16 ∧ h.domesticName.length = 48 ∧
    h.overseasName.length = 48 ∧ h.kind.length = 3 ∧ h.productCode.length = 11 ∧ h.ioSupport.length = 16 ∧
    h.sramFlag.length = 2 ∧ h.reserved.length = 1 ∧ h.modem.length = 12 ∧ h.memo.length = 40 ∧ h.country.length = 15

/-- A big-endian 32-bit field at offset `o`: the byte at the lowest offset is the most significant (R242). -/
def Memory.be32 (m : Memory) (o : Nat) : BitVec 32 :=
  m.byteAt o ++ m.byteAt (o + 1) ++ m.byteAt (o + 2) ++ m.byteAt (o + 3)

/-- A big-endian 16-bit field at offset `o` (R242). -/
def Memory.be16 (m : Memory) (o : Nat) : BitVec 16 := m.byteAt o ++ m.byteAt (o + 1)

/-- The header decode (R242): `none` is `TruncatedHeader`, fewer than 510 bytes. -/
def decodeHeader (m : Memory) : Option Header :=
  if m.len < Config.headerLen then none
  else
    some
      { vectorTable := m.slice 0x000 256
        consoleName := m.slice 0x100 16
        copyright := m.slice 0x110 16
        domesticName := m.slice 0x120 48
        overseasName := m.slice 0x150 48
        kind := m.slice 0x180 3
        productCode := m.slice 0x183 11
        checksum := m.be16 0x18E
        ioSupport := m.slice 0x190 16
        romStart := m.be32 0x1A0
        romEnd := m.be32 0x1A4
        ramStart := m.be32 0x1A8
        ramEnd := m.be32 0x1AC
        sramFlag := m.slice 0x1B0 2
        reserved := m.slice 0x1B2 1
        sramStart := m.be32 0x1B3
        sramEnd := m.be32 0x1B7
        modem := m.slice 0x1BB 12
        memo := m.slice 0x1C7 40
        country := m.slice 0x1EF 15 }

/-- The bytes of a big-endian 32-bit field, most significant first. -/
def be32Bytes (x : BitVec 32) : List Byte := [x.extractLsb' 24 8, x.extractLsb' 16 8, x.extractLsb' 8 8, x.extractLsb' 0 8]

/-- The bytes of a big-endian 16-bit field, most significant first. -/
def be16Bytes (x : BitVec 16) : List Byte := [x.extractLsb' 8 8, x.extractLsb' 0 8]

/-- The documented byte layout of a header (R241): its fields in order. -/
def Header.toBytes (h : Header) : List Byte :=
  h.vectorTable ++ (h.consoleName ++ (h.copyright ++ (h.domesticName ++ (h.overseasName ++ (h.kind ++ (h.productCode ++
    (be16Bytes h.checksum ++ (h.ioSupport ++ (be32Bytes h.romStart ++ (be32Bytes h.romEnd ++ (be32Bytes h.ramStart ++
    (be32Bytes h.ramEnd ++ (h.sramFlag ++ (h.reserved ++ (be32Bytes h.sramStart ++ (be32Bytes h.sramEnd ++ (h.modem ++
    (h.memo ++ h.country))))))))))))))))))

/-! ### Suffix dispatch (R243) and image assembly (R244) -/

/-- The two container variants (R244). No suffix selects `splitHeader` (C7). -/
inductive Container where
  | raw | splitHeader
deriving DecidableEq, Repr

/-- The single ordered match table of R243; `none` is the stub variant. -/
def suffixTable : List (List Char × Option Container) :=
  [(['.', 'b', 'i', 'n'], some .raw), (['.', 'g', 'e', 'n'], some .raw), (['.', 'm', 'd'], some .raw),
    (['.', 's', 'm', 'd'], none)]

/-- Suffix dispatch, without regard to case (R243): `none` is `UnsupportedFormat`, for the stub and for any other suffix. The
characters compared are the path's last ones (log 16). -/
def containerOf (path : List Char) : Option Container :=
  match suffixTable.find? (fun row => row.1.isSuffixOf (path.map Char.toLower)) with
  | some row => row.2
  | none => none

/-- `len = romEnd - romStart` as an integer, negative when the bounds are out of order (R244, R246). -/
def Header.declaredLen (h : Header) : Int := (h.romEnd.toNat : Int) - (h.romStart.toNat : Int)

/-- The ROM image (R244). Raw: the re-read file, padded with zeros up to the declared length if the second read was short.
Split-header: the header bytes read separately, and the rest of the file after them. -/
def assemble (c : Container) (f : LoadFile) (h : Header) : Memory :=
  match c with
  | .raw => f.reread.padTo h.declaredLen.toNat
  | .splitHeader => (f.reread.take Config.headerLen).append (f.reread.drop Config.headerLen)

/-- The checksum (R245): the sum modulo 2^16 of every byte from offset 510 on. Bytes that are not listed are 0 and add nothing. -/
def checksumOf (rom : Memory) : BitVec 16 :=
  BitVec.ofNat 16 (((rom.cells.filter (fun x => decide (Config.headerLen ≤ x.1))).map (fun x => x.2.toNat)).sum)

/-- The load request from the header and the image (R247). -/
def requestOf (h : Header) (rom : Memory) : LoadRequest :=
  { romStart := h.romStart, romEnd := h.romEnd, ramStart := h.ramStart, ramEnd := h.ramEnd,
    sramFlag0 := h.sramFlag.getD 0 0#8, sramFlag1 := h.sramFlag.getD 1 0#8, sramStart := h.sramStart, sramEnd := h.sramEnd,
    rom := rom }

/-! ### `load(path)` (R246) -/

/-- Host-level `load(path)`, its steps in the order of R246. The warning stands beside the status of every answer given after step 6
(log 15). -/
def loadPath (f : LoadFile) (s : State) : Out :=
  let u := s.withBlock s.block.unload
  match containerOf f.path with
  | none => raiseStatus .unsupportedFormat u
  | some c =>
    match decodeHeader f.bytes with
    | none => raiseStatus .truncatedHeader u
    | some h =>
      if (f.bytes.len : Int) < h.declaredLen then raiseStatus .headerInvalid u
      else loadTested (requestOf h (assemble c f h)) (checksumOf (assemble c f h) != h.checksum) u

end Sys2Proof.Machine
end

