-- ==== Sys2Proof/Machine/Lifecycle.lean ====
section
/-! DEFINITION. The meanings of the lifecycle rows (R86). -/

namespace Sys2Proof.Machine

/-- `LOAD` (R172, R246): the operand beside the word is a load request or a path with its file (R80). -/
def execLoad (s : State) : Out :=
  match s.operand with
  | .request r => loadBlock r s
  | .file f => loadPath f s

/-- `UNLOAD` (R176): no status, cannot fail. -/
def execUnload (s : State) : Out :=
  .next ((s.withBlock s.block.unload).respond { status := none, value := none, warn := false })

end Sys2Proof.Machine
end

