-- ==== Sys2Proof/Machine/Read.lean ====
section
/-! DEFINITION. The meanings of the `peek` rows. Each is the effect of its own rule where the row's condition holds; where it does
not, the operation is the same `peek` under the row that the priority order selects (R84, R87; log 1). No read row writes the block
(R59). -/

namespace Sys2Proof.Machine

/-- `RD.NOTLOADED` (R119): status `NotLoaded`, no byte. -/
def execRdNotLoaded (a : Addr) (s : State) : Out :=
  if rowHolds s.view (.rdNotLoaded a) then raiseStatus .notLoaded s else peek Config.oorPolicy a s

/-- `RD.FLAT` (R112): `Fetch(S.rom, a - romStart)`. -/
def execRdFlat (a : Addr) (s : State) : Out :=
  if rowHolds s.view (.rdFlat a) then fetch Config.oorPolicy s.block.rom (a.toNat - s.block.romStart) s
  else peek Config.oorPolicy a s

/-- `RD.FIXED` (R113): `Fetch(S.rom, a)`. -/
def execRdFixed (a : Addr) (s : State) : Out :=
  if rowHolds s.view (.rdFixed a) then fetch Config.oorPolicy s.block.rom a.toNat s else peek Config.oorPolicy a s

/-- `RD.WIN0` (R114). -/
def execRdWin0 (a : Addr) (s : State) : Out :=
  if rowHolds s.view (.rdWin0 a) then windowRead Config.oorPolicy 0 a s else peek Config.oorPolicy a s

/-- `RD.WIN1` (R114). -/
def execRdWin1 (a : Addr) (s : State) : Out :=
  if rowHolds s.view (.rdWin1 a) then windowRead Config.oorPolicy 1 a s else peek Config.oorPolicy a s

/-- `RD.WIN2` (R114). -/
def execRdWin2 (a : Addr) (s : State) : Out :=
  if rowHolds s.view (.rdWin2 a) then windowRead Config.oorPolicy 2 a s else peek Config.oorPolicy a s

/-- `RD.WIN3` (R114). -/
def execRdWin3 (a : Addr) (s : State) : Out :=
  if rowHolds s.view (.rdWin3 a) then windowRead Config.oorPolicy 3 a s else peek Config.oorPolicy a s

/-- `RD.WIN4` (R114). -/
def execRdWin4 (a : Addr) (s : State) : Out :=
  if rowHolds s.view (.rdWin4 a) then windowRead Config.oorPolicy 4 a s else peek Config.oorPolicy a s

/-- `RD.WIN5` (R114). -/
def execRdWin5 (a : Addr) (s : State) : Out :=
  if rowHolds s.view (.rdWin5 a) then windowRead Config.oorPolicy 5 a s else peek Config.oorPolicy a s

/-- `RD.WIN6` (R114). -/
def execRdWin6 (a : Addr) (s : State) : Out :=
  if rowHolds s.view (.rdWin6 a) then windowRead Config.oorPolicy 6 a s else peek Config.oorPolicy a s

/-- `RD.RAM` (R115): `Fetch(S.ram, a - ramStart)`. -/
def execRdRam (a : Addr) (s : State) : Out :=
  if rowHolds s.view (.rdRam a) then fetch Config.oorPolicy s.block.ram (a.toNat - s.block.ramStart) s
  else peek Config.oorPolicy a s

/-- `RD.SRAM` (R116): `Fetch(S.sram, a - sramStart)`. -/
def execRdSram (a : Addr) (s : State) : Out :=
  if rowHolds s.view (.rdSram a) then fetch Config.oorPolicy s.block.sram (a.toNat - s.block.sramStart) s
  else peek Config.oorPolicy a s

/-- `RD.UNMAPPED` (R118): status `BusError`, no byte. -/
def execRdUnmapped (a : Addr) (s : State) : Out :=
  if rowHolds s.view (.rdUnmapped a) then raiseStatus .busError s else peek Config.oorPolicy a s

end Sys2Proof.Machine
end

