-- ==== Sys2Proof/Machine/Write.lean ====
section
/-! DEFINITION. The meanings of the `poke` rows. Each is the effect of its own rule where the row's condition holds; where it does
not, the operation is the same `poke` under the row that the priority order selects (R85, R87; log 1). No row writes `S.rom`,
`S.cfg`, `S.capable` or `S.loaded` (R140, R149). -/

namespace Sys2Proof.Machine

/-- `WR.NOTLOADED` (R147): status `NotLoaded`, nothing written. -/
def execWrNotLoaded (a : Addr) (v : Byte) (s : State) : Out :=
  if rowHolds s.view (.wrNotLoaded a v) then raiseStatus .notLoaded s else poke Config.slotM1Policy a v s

/-- `WR.RAM` (R142): `S.ram[a - ramStart] <- v`. -/
def execWrRam (a : Addr) (v : Byte) (s : State) : Out :=
  if rowHolds s.view (.wrRam a v) then storeRam (a.toNat - s.block.ramStart) v s else poke Config.slotM1Policy a v s

/-- `WR.SRAM` (R143): `S.sram[a - sramStart] <- v`. -/
def execWrSram (a : Addr) (v : Byte) (s : State) : Out :=
  if rowHolds s.view (.wrSram a v) then storeSram (a.toNat - s.block.sramStart) v s else poke Config.slotM1Policy a v s

/-- `WR.ARM` (R144): `S.armed <- true`, whatever the data byte, capable or not. -/
def execWrArm (a : Addr) (v : Byte) (s : State) : Out :=
  if rowHolds s.view (.wrArm a v) then armMapper s else poke Config.slotM1Policy a v s

/-- `WR.BANKSEL`, 0xA130F3: slot 0 (R145). -/
def execWrBankselF3 (a : Addr) (v : Byte) (s : State) : Out :=
  if rowHolds s.view (.wrBankselF3 a v) then bankSelect Config.slotM1Policy (bankSlot a) v s
  else poke Config.slotM1Policy a v s

/-- `WR.BANKSEL`, 0xA130F4..0xA130F7: slots 1 and 2 (R145). -/
def execWrBankselF4 (a : Addr) (v : Byte) (s : State) : Out :=
  if rowHolds s.view (.wrBankselF4 a v) then bankSelect Config.slotM1Policy (bankSlot a) v s
  else poke Config.slotM1Policy a v s

/-- `WR.BANKSEL`, 0xA130F8..0xA130FF: slots 3 to 6 (R145). -/
def execWrBankselF8 (a : Addr) (v : Byte) (s : State) : Out :=
  if rowHolds s.view (.wrBankselF8 a v) then bankSelect Config.slotM1Policy (bankSlot a) v s
  else poke Config.slotM1Policy a v s

/-- `WR.BANKSEL`, 0xA13100..0xA131FF: slots -1 to 6, the aliases (R145, R90). -/
def execWrBanksel131 (a : Addr) (v : Byte) (s : State) : Out :=
  if rowHolds s.view (.wrBanksel131 a v) then bankSelect Config.slotM1Policy (bankSlot a) v s
  else poke Config.slotM1Policy a v s

/-- `WR.DISCARD` (R146): nothing written, status `OK`. -/
def execWrDiscard (a : Addr) (v : Byte) (s : State) : Out :=
  if rowHolds s.view (.wrDiscard a v) then raiseStatus .ok s else poke Config.slotM1Policy a v s

end Sys2Proof.Machine
end

