-- ==== Sys2Proof/Machine/Dispatch.lean ====
section
/-! DEFINITION. One arm per row of the opcode table. -/

namespace Sys2Proof.Machine

def exec (i : Instr) (s : State) : Host.Outcome State Fault Refusal :=
  match i with
  | .rdNotLoaded a => Sys2Proof.Machine.execRdNotLoaded a s
  | .rdFlat a => Sys2Proof.Machine.execRdFlat a s
  | .rdFixed a => Sys2Proof.Machine.execRdFixed a s
  | .rdWin0 a => Sys2Proof.Machine.execRdWin0 a s
  | .rdWin1 a => Sys2Proof.Machine.execRdWin1 a s
  | .rdWin2 a => Sys2Proof.Machine.execRdWin2 a s
  | .rdWin3 a => Sys2Proof.Machine.execRdWin3 a s
  | .rdWin4 a => Sys2Proof.Machine.execRdWin4 a s
  | .rdWin5 a => Sys2Proof.Machine.execRdWin5 a s
  | .rdWin6 a => Sys2Proof.Machine.execRdWin6 a s
  | .rdRam a => Sys2Proof.Machine.execRdRam a s
  | .rdSram a => Sys2Proof.Machine.execRdSram a s
  | .rdUnmapped a => Sys2Proof.Machine.execRdUnmapped a s
  | .wrNotLoaded a v => Sys2Proof.Machine.execWrNotLoaded a v s
  | .wrRam a v => Sys2Proof.Machine.execWrRam a v s
  | .wrSram a v => Sys2Proof.Machine.execWrSram a v s
  | .wrArm a v => Sys2Proof.Machine.execWrArm a v s
  | .wrBankselF3 a v => Sys2Proof.Machine.execWrBankselF3 a v s
  | .wrBankselF4 a v => Sys2Proof.Machine.execWrBankselF4 a v s
  | .wrBankselF8 a v => Sys2Proof.Machine.execWrBankselF8 a v s
  | .wrBanksel131 a v => Sys2Proof.Machine.execWrBanksel131 a v s
  | .wrDiscard a v => Sys2Proof.Machine.execWrDiscard a v s
  | .load => Sys2Proof.Machine.execLoad s
  | .unload => Sys2Proof.Machine.execUnload s

end Sys2Proof.Machine
end

