-- ==== Sys2Proof/Machine/Step.lean ====
section
/-! DEFINITION. One step: the oldest operation the agents have issued, whole (R14, R61, R62). -/

namespace Sys2Proof.Machine

/-- One step. With nothing issued the block does nothing (R33, "no background work"; log 13); else the oldest operation is taken,
decoded in the block as it stands, and executed. -/
def step (s : State) : Host.Outcome State Fault Refusal :=
  match s.issued with
  | [] => .next s
  | t :: rest => exec (decodeIn s.view t.word) (s.accept t rest)

/-- `s` with the transaction word `w` issued as the very next operation. The load operand beside it is the one at the port
(log 6). -/
def State.withFetchWord (s : State) (nbits w : Nat) : State :=
  { s with issued := s.transactionOf (w % 2 ^ nbits) :: s.issued }

end Sys2Proof.Machine
end

