-- ==== Sys2Proof/Safety.lean ====
section
/-! DEFINITION. The invariant of reachable states (R36) in the terms the statements use, and what the frames speak of. -/

namespace Sys2Proof.Machine

/-- R36 (a): an Unloaded block is empty, its mapper reset, its configuration without value (R35). -/
def Block.EmptyIfUnloaded (b : Block) : Prop :=
  b.loaded = false →
    b.cfg = none ∧ b.rom.len = 0 ∧ b.ram.len = 0 ∧ b.sram.len = 0 ∧ b.capable = false ∧ b.armed = false ∧
      ∀ k : Fin 7, b.bank[k] = 0#8

/-- R36 (b), with the bounds of R9: the arrays of a Loaded block have the sizes of its configuration, and capability is the image
length's. -/
def Block.SizedIfLoaded (b : Block) : Prop :=
  b.loaded = true →
    ∃ c : BusConfig, b.cfg = some c ∧
      c.romStart.toNat ≤ c.romEnd.toNat ∧ c.romEnd.toNat - c.romStart.toNat ≤ b.rom.len ∧
      c.ramStart.toNat ≤ c.ramEnd.toNat ∧ b.ram.len = c.ramEnd.toNat - c.ramStart.toNat ∧ b.ram.len ≤ 0x100000 ∧
      (c.sramPresent = true →
        c.sramStart.toNat ≤ c.sramEnd.toNat ∧ b.sram.len = c.sramEnd.toNat - c.sramStart.toNat ∧ b.sram.len ≤ 0x100000) ∧
      (c.sramPresent = false → b.sram.len = 0) ∧
      (b.capable = true ↔ 0x400000 < b.rom.len)

/-- R36 (d): a bank register that is not 0 belongs to a capable, armed mapper. -/
def Block.BankNeedsArmed (b : Block) : Prop :=
  (∃ k : Fin 7, b.bank[k] ≠ 0#8) → b.capable = true ∧ b.armed = true

/-- The three arrays are in canonical form. -/
def Block.ArraysWf (b : Block) : Prop := b.rom.wf ∧ b.ram.wf ∧ b.sram.wf

/-- R24, R254: the last byte of the working RAM, and of the save RAM, is 0 for the whole life of a load. -/
def Block.LastBytesZero (b : Block) : Prop :=
  (∀ i, i + 1 = b.ram.len → b.ram.read i = some 0#8) ∧ (∀ i, i + 1 = b.sram.len → b.sram.read i = some 0#8)

/-- The invariant of the block (R36). -/
def Block.Inv (b : Block) : Prop :=
  b.EmptyIfUnloaded ∧ b.SizedIfLoaded ∧ b.BankNeedsArmed ∧ b.ArraysWf ∧ b.LastBytesZero

/-- The images in a load operand are in canonical form (log 5). -/
def LoadOperand.Wf : LoadOperand → Prop
  | .request r => r.rom.wf
  | .file f => f.bytes.wf ∧ f.reread.wf

/-- The invariant of the machine: the block's, and canonical images in every load operand. -/
def State.Inv (s : State) : Prop := s.block.Inv ∧ s.operand.Wf ∧ ∀ t ∈ s.issued, t.operand.Wf

/-! ### The rows of one operation -/

/-- The thirteen rows of a `peek` of `a` (R84, R86). -/
def readRows (a : Addr) : List Instr :=
  [.rdNotLoaded a, .rdFlat a, .rdFixed a, .rdWin0 a, .rdWin1 a, .rdWin2 a, .rdWin3 a, .rdWin4 a, .rdWin5 a, .rdWin6 a,
    .rdRam a, .rdSram a, .rdUnmapped a]

/-- The four patterns of `WR.BANKSEL` (R85). -/
def bankselRows (a : Addr) (v : Byte) : List Instr :=
  [.wrBankselF3 a v, .wrBankselF4 a v, .wrBankselF8 a v, .wrBanksel131 a v]

/-- The nine rows of a `poke` of `v` to `a` (R85, R86). -/
def writeRows (a : Addr) (v : Byte) : List Instr :=
  [.wrNotLoaded a v, .wrRam a v, .wrSram a v, .wrArm a v, .wrBankselF3 a v, .wrBankselF4 a v, .wrBankselF8 a v,
    .wrBanksel131 a v, .wrDiscard a v]

/-! ### The shape of the answers -/

/-- The outcome of a mapped read of index `i` of array `m` (R117): inside the array the byte that stands there, past its end the status
`RangeFault`; nothing else changes. -/
def ReturnsByteOf (m : Memory) (i : Nat) (s : State) (o : Out) : Prop :=
  (i < m.len →
    ∃ b, m.read i = some b ∧ o = .next { s with response := some { status := some .ok, value := some b, warn := false } }) ∧
  (m.len ≤ i → o = .next { s with response := some { status := some .rangeFault, value := none, warn := false } })

/-- No read rule for ROM claims the address (R112 to R114 did not match). -/
def Block.NoRomRule (b : Block) (c : BusConfig) (a : Addr) : Prop :=
  ((b.capable && b.armed) = false → ¬ (c.romStart.toNat ≤ a.toNat ∧ a.toNat ≤ c.romEnd.toNat)) ∧
  ((b.capable && b.armed) = true → 0x3FFFFF < a.toNat)

/-- Neither the RAM nor the save-RAM write window claims the address (R142 and R143 did not match). -/
def NoRamWrite (c : BusConfig) (a : Addr) : Prop :=
  ¬ (c.ramStart.toNat ≤ a.toNat ∧ a.toNat + 2 ≤ c.ramEnd.toNat) ∧
  ¬ (c.sramPresent = true ∧ c.sramStart.toNat ≤ a.toNat ∧ a.toNat + 2 ≤ c.sramEnd.toNat)

end Sys2Proof.Machine
end

