-- ==== Sys2Proof/Certificates/Slice0/Obligations.lean ====
section
/-! DEFINITION. The statements for the provers. Each docstring names the rules a statement rests on; what it rests on beyond them is
named with its log entry. -/

open Sys2Proof Sys2Proof.Machine

/-! ### Encoding and decoding -/

/-- R84 to R87: in a block seen as `v`, the word of a row whose condition holds decodes to that row, with its operands. -/
def Obligations.RowInForceDecodesFromItsWord : Prop :=
  ∀ (v : View) (i : Instr), i.wellFormed = true → rowHolds v i = true → decodeIn v (encode i) = i

/-- R84, R85, and log 1 (DESIGN CHOICE: a bare word is read in the view `View.patternOnly`): the rows of kind pattern decode from the
bare word. -/
def Obligations.PatternRowsDecodeFromBareWord : Prop :=
  ∀ (n : Nat) (a : Addr) (v : Byte) (i : Instr), 42 ≤ n →
    i ∈ [.rdFixed a, .rdWin0 a, .rdWin1 a, .rdWin2 a, .rdWin3 a, .rdWin4 a, .rdWin5 a, .rdWin6 a, .wrArm a v,
      .wrBankselF3 a v, .wrBankselF4 a v, .wrBankselF8 a v, .wrBanksel131 a v, .load, .unload] →
    i.wellFormed = true → decodeTableWord n (encode i).toNat = some i

/-- Words printed in the tables of `95_test_vectors.md`, in two groups.
The first ten clauses are the model's bare-word reading (log 1, DESIGN CHOICE: `decodeTableWord` reads in `View.patternOnly`, a view
that is loaded, capable, armed and unconfigured; R87 gives bits alone no row). Each names the row that a table prints beside the word in
an armed capable block: RD.FIXED, RD.WIN0, RD.WIN6 in V-RD/B2; or that the word has wherever the table's block is loaded (and, for
WR.BANKSEL, capable): WR.ARM in V-RD/B2, WR.BANKSEL in V-RD/B3 and V-SLOT, LOAD in V-RD/B1; or in every state: UNLOAD in the lifecycle
program of part 9. Other tables print some of these words for other rows (`0x00000010000` is RD.FLAT in V-RD/B1 and RD.NOTLOADED while
Unloaded).
The last seven are read in the state their tables print them for, `CFG_B` not armed: RD.FLAT, RD.SRAM, RD.UNMAPPED in V-RD/B1, RD.RAM
in line 13 of the lifecycle program of part 9, WR.RAM, WR.SRAM, WR.DISCARD in V-WR/B. -/
def Obligations.PrintedWordsDecode : Prop :=
  decodeTableWord 48 0x00000010000 = some (.rdFixed 0x00000100) ∧
  decodeTableWord 48 0x00008050000 = some (.rdWin0 0x00080500) ∧
  decodeTableWord 48 0x0003FFFFF00 = some (.rdWin6 0x003FFFFF) ∧
  decodeTableWord 48 0x100A130F100 = some (.wrArm 0x00A130F1 0x00) ∧
  decodeTableWord 48 0x100A130F302 = some (.wrBankselF3 0x00A130F3 0x02) ∧
  decodeTableWord 48 0x100A130F5C5 = some (.wrBankselF4 0x00A130F5 0xC5) ∧
  decodeTableWord 48 0x100A130FFCF = some (.wrBankselF8 0x00A130FF 0xCF) ∧
  decodeTableWord 48 0x100A13101C1 = some (.wrBanksel131 0x00A13101 0xC1) ∧
  decodeTableWord 48 0x20000000000 = some .load ∧
  decodeTableWord 48 0x30000000000 = some .unload ∧
  ∀ v : View, v.loaded = true → v.capable = true → v.armed = false →
    v.cfg = some { romStart := 0x000000, romEnd := 0x4FFFFF, ramStart := 0xFF0000, ramEnd := 0xFF0FFF, sramPresent := true,
                   sramStart := 0x600001, sramEnd := 0x60FFFF } →
    decodeIn v 0x00048001000 = .rdFlat 0x00480010 ∧ decodeIn v 0x000FF001000 = .rdRam 0x00FF0010 ∧
    decodeIn v 0x00060000100 = .rdSram 0x00600001 ∧ decodeIn v 0x000C0000000 = .rdUnmapped 0x00C00000 ∧
    decodeIn v 0x100FF0FFD22 = .wrRam 0x00FF0FFD 0x22 ∧ decodeIn v 0x1006000015A = .wrSram 0x00600001 0x5A ∧
    decodeIn v 0x100FF0FFE33 = .wrDiscard 0x00FF0FFE 0x33

/-- R80, R84 to R86, R91: every word is an operation of exactly one row, which keeps the fields its operation uses. -/
def Obligations.EveryWordIsInExactlyOneRow : Prop :=
  ∀ (v : View) (w : TWord),
    (decodeIn v w).wellFormed = true ∧ rowHolds v (decodeIn v w) = true ∧
    opT (encode (decodeIn v w)) = opT w ∧
    ((opT w).toNat < 2 → addrT (encode (decodeIn v w)) = addrT w) ∧
    (opT w = 1#2 → dataT (encode (decodeIn v w)) = dataT w) ∧
    ∀ j : Instr, j.wellFormed = true → rowHolds v j = true → encode j = encode (decodeIn v w) → j = decodeIn v w

/-- Log 14 (DESIGN CHOICE, the byte layout of `T`): six bytes decode as the word they lay out, anything else is rejected by name. -/
def Obligations.BytesDecodeAsTheirWord : Prop :=
  ∀ (v : View) (rest : List Byte),
    (∀ w : TWord, decodeBytes v (bytesOf 6 w.toNat ++ rest) = .ok (decodeIn v w, rest)) ∧
    (∀ n : Nat, 2 ^ 42 ≤ n → n < 2 ^ 48 → decodeBytes v (bytesOf 6 n ++ rest) = .error .bitsAbove41) ∧
    (∀ l : List Byte, l.length < 6 → decodeBytes v l = .error .truncated)

/-- R150, R141: the data byte of a `poke` never decides which row it falls in. -/
def Obligations.DataNeverSelectsTheRow : Prop :=
  ∀ (v : View) (a : Addr),
    ∃ row ∈ [Instr.wrNotLoaded a, Instr.wrRam a, Instr.wrSram a, Instr.wrArm a, Instr.wrBankselF3 a, Instr.wrBankselF4 a,
      Instr.wrBankselF8 a, Instr.wrBanksel131 a, Instr.wrDiscard a], ∀ d : Byte, decodeIn v (packT 1 a d) = row d

/-! ### The step -/

/-- R14, R61: a step is the oldest issued operation, decoded in the block as it stands and executed whole. -/
def Obligations.StepRunsTheDecodedOperation : Prop :=
  ∀ (s : State) (t : Transaction) (rest : List Transaction) (i : Instr), s.issued = t :: rest →
    decodeIn { loaded := s.block.loaded, capable := s.block.capable, armed := s.block.armed, cfg := s.block.cfg } t.word = i →
    step s = exec i { s with issued := rest, operand := t.operand }

/-- Log 13 (DESIGN CHOICE): with nothing issued, a step changes nothing. -/
def Obligations.IdleStepChangesNothing : Prop := ∀ s : State, s.issued = [] → step s = .next s

/-- The model's convention, no rule of the spec (R87 says that the bits alone do not name the row): a bare word placed by
`withFetchWord` runs as the row that `decodeTableWord` reads from it, in whatever state. It rests on log 1 (DESIGN CHOICE: the bare word
is read in `View.patternOnly`, and a row outside its condition runs as the whole algorithm) and log 6 (DESIGN CHOICE: `withFetchWord`
issues the word with the load operand that stands at the port). -/
def Obligations.IssuedWordRunsAsItsPatternRow : Prop :=
  ∀ (s : State) (nbits w : Nat) (i : Instr), decodeTableWord nbits w = some i → step (s.withFetchWord nbits w) = exec i s

/-! ### The rows against the algorithms -/

/-- R84 with R112 to R119 against R110, R111: the rules of the rows and the `peek` algorithm are one function. -/
def Obligations.ReadRowsAgreeWithPeekAlgorithm : Prop :=
  ∀ (s : State) (a : Addr) (i : Instr), i ∈ readRows a → exec i s = peek .fault a s

/-- R85 with R142 to R147 against R140, R141: the rules of the rows and the `poke` algorithm are one function. -/
def Obligations.WriteRowsAgreeWithPokeAlgorithm : Prop :=
  ∀ (s : State) (a : Addr) (v : Byte) (i : Instr), i ∈ writeRows a v → exec i s = poke .armOnly a v s

/-! ### Reads -/

/-- R119, R147: while Unloaded, `peek` and `poke` return `NotLoaded` and change nothing (the status name is the spec's, D9). -/
def Obligations.UnloadedAccessReturnsNotLoaded : Prop :=
  ∀ (s : State) (a : Addr) (v : Byte), s.block.loaded = false →
    exec (.rdNotLoaded a) s
      = .next { s with response := some { status := some .notLoaded, value := none, warn := false } } ∧
    exec (.wrNotLoaded a v) s
      = .next { s with response := some { status := some .notLoaded, value := none, warn := false } }

/-- R112, R117: flat ROM is indexed by `a - romStart` (past the image: `RangeFault`, the default of D5, log 7). -/
def Obligations.FlatReadReturnsImageByte : Prop :=
  ∀ (s : State) (c : BusConfig) (a : Addr), s.block.loaded = true → (s.block.capable && s.block.armed) = false →
    s.block.cfg = some c → c.romStart.toNat ≤ a.toNat → a.toNat ≤ c.romEnd.toNat →
    ReturnsByteOf s.block.rom (a.toNat - c.romStart.toNat) s (exec (.rdFlat a) s)

/-- R113: the fixed window shows the image byte at the bus address itself, and in a reachable block always has one. -/
def Obligations.FixedWindowReadsAbsoluteIndex : Prop :=
  ∀ (s : State) (a : Addr), s.block.loaded = true → s.block.capable = true → s.block.armed = true → a.toNat ≤ 0x07FFFF →
    ReturnsByteOf s.block.rom a.toNat s (exec (.rdFixed a) s) ∧
    (s.block.Inv → ∃ b, exec (.rdFixed a) s
      = .next { s with response := some { status := some .ok, value := some b, warn := false } })

/-- R114: window `n` shows the slice its own bank register selects, and the address itself when that register is 0 (past the image:
`RangeFault`, the default of D5, log 7). -/
def Obligations.BankedWindowReadsSelectedSlice : Prop :=
  ∀ (s : State) (n : Fin 7) (a : Addr), s.block.loaded = true → s.block.capable = true → s.block.armed = true →
    0x080000 + n.val * 0x80000 ≤ a.toNat → a.toNat ≤ 0x0FFFFF + n.val * 0x80000 →
    (s.block.bank[n] ≠ 0#8 →
      ReturnsByteOf s.block.rom (s.block.bank[n].toNat * 0x80000 + (a.toNat - (0x080000 + n.val * 0x80000))) s
        (exec (.rdWin n a) s)) ∧
    (s.block.bank[n] = 0#8 → ReturnsByteOf s.block.rom a.toNat s (exec (.rdWin n a) s))

/-- R115: working RAM, where no ROM rule claims the address (at `ramEnd`: `RangeFault`, the default of D5, log 7). -/
def Obligations.RamReadReturnsRamByte : Prop :=
  ∀ (s : State) (c : BusConfig) (a : Addr), s.block.loaded = true → s.block.cfg = some c → s.block.NoRomRule c a →
    c.ramStart.toNat ≤ a.toNat → a.toNat ≤ c.ramEnd.toNat →
    ReturnsByteOf s.block.ram (a.toNat - c.ramStart.toNat) s (exec (.rdRam a) s)

/-- R116: save RAM, where neither a ROM rule nor the RAM window claims the address (at `sramEnd`: `RangeFault`, D5, log 7). -/
def Obligations.SramReadReturnsSramByte : Prop :=
  ∀ (s : State) (c : BusConfig) (a : Addr), s.block.loaded = true → s.block.cfg = some c → s.block.NoRomRule c a →
    ¬ (c.ramStart.toNat ≤ a.toNat ∧ a.toNat ≤ c.ramEnd.toNat) → c.sramPresent = true →
    c.sramStart.toNat ≤ a.toNat → a.toNat ≤ c.sramEnd.toNat →
    ReturnsByteOf s.block.sram (a.toNat - c.sramStart.toNat) s (exec (.rdSram a) s)

/-- R118: an address that no read rule claims returns `BusError` and no byte, and nothing changes. -/
def Obligations.UnmappedReadReturnsBusError : Prop :=
  ∀ (s : State) (c : BusConfig) (a : Addr), s.block.loaded = true → s.block.cfg = some c → s.block.NoRomRule c a →
    ¬ (c.ramStart.toNat ≤ a.toNat ∧ a.toNat ≤ c.ramEnd.toNat) →
    ¬ (c.sramPresent = true ∧ c.sramStart.toNat ≤ a.toNat ∧ a.toNat ≤ c.sramEnd.toNat) →
    exec (.rdUnmapped a) s = .next { s with response := some { status := some .busError, value := none, warn := false } }

/-- R59, R110: no `peek` row changes the block, the queue or the operand, whatever the address and state; it returns one of four
statuses, and a byte exactly with `OK`. -/
def Obligations.ReadRowsChangeNoState : Prop :=
  ∀ (s t : State) (a : Addr) (i : Instr), i ∈ readRows a → exec i s = .next t →
    t.block = s.block ∧ t.issued = s.issued ∧ t.operand = s.operand ∧
    ∃ r : Response, t.response = some r ∧ r.warn = false ∧
      (r.status = some .ok ∨ r.status = some .busError ∨ r.status = some .notLoaded ∨ r.status = some .rangeFault) ∧
      (r.value.isSome = true ↔ r.status = some .ok)

/-- R122: reads that are never out of range, in a reachable Loaded block. -/
def Obligations.InRangeReadsAlwaysReturnAByte : Prop :=
  ∀ (s : State) (c : BusConfig) (a : Addr), s.block.Inv → s.block.loaded = true → s.block.cfg = some c →
    (((s.block.capable && s.block.armed) = true ∧ a.toNat ≤ 0x3FFFFF ∧
        (a.toNat ≤ 0x07FFFF ∨ s.block.bankReg (a.toNat / 0x80000 - 1) = 0#8 ∨
          ((s.block.bankReg (a.toNat / 0x80000 - 1)).toNat + 1) * 0x80000 ≤ s.block.rom.len)) ∨
      ((s.block.capable && s.block.armed) = false ∧ c.romStart.toNat ≤ a.toNat ∧
        (a.toNat < c.romEnd.toNat ∨ (a.toNat = c.romEnd.toNat ∧ c.romEnd.toNat - c.romStart.toNat < s.block.rom.len))) ∨
      (s.block.NoRomRule c a ∧ c.ramStart.toNat ≤ a.toNat ∧ a.toNat < c.ramEnd.toNat) ∨
      (s.block.NoRomRule c a ∧ ¬ (c.ramStart.toNat ≤ a.toNat ∧ a.toNat ≤ c.ramEnd.toNat) ∧ c.sramPresent = true ∧
        c.sramStart.toNat ≤ a.toNat ∧ a.toNat < c.sramEnd.toNat)) →
    ∀ i ∈ readRows a, ∃ b, exec i s
      = .next { s with response := some { status := some .ok, value := some b, warn := false } }

/-- R254, R24: the last byte of each RAM reads 0x00 at `end - 1`, for the whole life of a load. -/
def Obligations.TopRamByteReadsZero : Prop :=
  ∀ (s : State) (c : BusConfig) (a : Addr), s.block.Inv → s.block.loaded = true → s.block.cfg = some c →
    s.block.NoRomRule c a →
    (c.ramStart.toNat ≤ a.toNat → a.toNat + 1 = c.ramEnd.toNat →
      exec (.rdRam a) s = .next { s with response := some { status := some .ok, value := some 0#8, warn := false } }) ∧
    (c.sramPresent = true → ¬ (c.ramStart.toNat ≤ a.toNat ∧ a.toNat ≤ c.ramEnd.toNat) →
      c.sramStart.toNat ≤ a.toNat → a.toNat + 1 = c.sramEnd.toNat →
      exec (.rdSram a) s = .next { s with response := some { status := some .ok, value := some 0#8, warn := false } })

/-! ### Writes -/

/-- R142: a write of the RAM window, less its top two addresses, stores the byte at `a - ramStart` and changes nothing else. -/
def Obligations.RamWriteStoresOneByte : Prop :=
  ∀ (s : State) (c : BusConfig) (a : Addr) (v : Byte), s.block.Inv → s.block.loaded = true → s.block.cfg = some c →
    c.ramStart.toNat ≤ a.toNat →
    (a.toNat + 2 ≤ c.ramEnd.toNat →
      ∃ t, exec (.wrRam a v) s = .next t ∧
        t.response = some { status := some .ok, value := none, warn := false } ∧
        t.block.ram.len = s.block.ram.len ∧ t.block.ram.read (a.toNat - c.ramStart.toNat) = some v ∧
        (∀ j, j ≠ a.toNat - c.ramStart.toNat → t.block.ram.read j = s.block.ram.read j) ∧
        { t.block with ram := s.block.ram } = s.block ∧ t.issued = s.issued ∧ t.operand = s.operand) ∧
    (c.ramEnd.toNat < a.toNat + 2 →
      ∀ i ∈ writeRows a v, ∃ t, exec i s = .next t ∧ t.block.ram = s.block.ram ∧
        t.response = some { status := some .ok, value := none, warn := false })

/-- R143: as for RAM, where the RAM write window does not claim the address. -/
def Obligations.SramWriteStoresOneByte : Prop :=
  ∀ (s : State) (c : BusConfig) (a : Addr) (v : Byte), s.block.Inv → s.block.loaded = true → s.block.cfg = some c →
    ¬ (c.ramStart.toNat ≤ a.toNat ∧ a.toNat + 2 ≤ c.ramEnd.toNat) →
    (c.sramPresent = true → c.sramStart.toNat ≤ a.toNat → a.toNat + 2 ≤ c.sramEnd.toNat →
      ∃ t, exec (.wrSram a v) s = .next t ∧
        t.response = some { status := some .ok, value := none, warn := false } ∧
        t.block.sram.len = s.block.sram.len ∧ t.block.sram.read (a.toNat - c.sramStart.toNat) = some v ∧
        (∀ j, j ≠ a.toNat - c.sramStart.toNat → t.block.sram.read j = s.block.sram.read j) ∧
        { t.block with sram := s.block.sram } = s.block ∧ t.issued = s.issued ∧ t.operand = s.operand) ∧
    (c.sramPresent = false ∨ c.sramEnd.toNat < a.toNat + 2 →
      ∀ i ∈ writeRows a v, ∃ t, exec i s = .next t ∧ t.block.sram = s.block.sram ∧ t.block.ram = s.block.ram ∧
        t.response = some { status := some .ok, value := none, warn := false })

/-- R144: a write of 0xA130F1 arms the mapper whatever the data and whether or not the cartridge is capable, and changes no bank
value; when not capable it changes no later `peek` or `poke`. -/
def Obligations.EnableRegisterArms : Prop :=
  ∀ (s : State) (c : BusConfig) (a : Addr) (v : Byte), s.block.loaded = true → s.block.cfg = some c → NoRamWrite c a →
    a = 0x00A130F1#32 →
    exec (.wrArm a v) s
      = .next { s with
          block := { s.block with armed := true }
          response := some { status := some .ok, value := none, warn := false } } ∧
    (s.block.capable = false →
      ∀ x, rdDecode { s.block with armed := true } x = rdDecode s.block x ∧
        wrDecode { s.block with armed := true } x = wrDecode s.block x)

/-- R145, R89: a bank-select write whose slot is 0 to 6 arms the mapper and stores the whole data byte in that register, through any of
the four patterns; nothing else changes. -/
def Obligations.BankSelectStoresOneRegister : Prop :=
  ∀ (s : State) (c : BusConfig) (a : Addr) (v : Byte) (k : Fin 7) (i : Instr), i ∈ bankselRows a v → s.block.loaded = true →
    s.block.capable = true → s.block.cfg = some c → NoRamWrite c a →
    0xA130F3 ≤ a.toNat → a.toNat ≤ 0xA131FF → a.toNat % 16 / 2 = k.val + 1 →
    ∃ t, exec i s = .next t ∧
      t.response = some { status := some .ok, value := none, warn := false } ∧
      t.block.armed = true ∧ t.block.bank[k] = v ∧ (∀ j : Fin 7, j ≠ k → t.block.bank[j] = s.block.bank[j]) ∧
      { t.block with armed := s.block.armed, bank := s.block.bank } = s.block ∧
      t.issued = s.issued ∧ t.operand = s.operand

/-- R90 (the choice D6 of the spec, log 8): a bank-select write of slot -1 arms the mapper and writes no register. -/
def Obligations.SlotMinusOneOnlyArms : Prop :=
  ∀ (s : State) (c : BusConfig) (a : Addr) (v : Byte) (i : Instr), i ∈ bankselRows a v → s.block.loaded = true →
    s.block.capable = true → s.block.cfg = some c → NoRamWrite c a →
    0xA130F3 ≤ a.toNat → a.toNat ≤ 0xA131FF → a.toNat % 16 / 2 = 0 →
    exec i s
      = .next { s with
          block := { s.block with armed := true }
          response := some { status := some .ok, value := none, warn := false } }

/-- R146: a write that no rule claims changes nothing and returns `OK`. -/
def Obligations.UnclaimedWriteIsDiscarded : Prop :=
  ∀ (s : State) (c : BusConfig) (a : Addr) (v : Byte), s.block.loaded = true → s.block.cfg = some c → NoRamWrite c a →
    a.toNat ≠ 0xA130F1 → ¬ (s.block.capable = true ∧ 0xA130F3 ≤ a.toNat ∧ a.toNat ≤ 0xA131FF) →
    exec (.wrDiscard a v) s = .next { s with response := some { status := some .ok, value := none, warn := false } }

/-- R149: what a `poke` can change, through any of its rows and in any state: the byte, the flag or the register that its decode names,
and nothing else. -/
def Obligations.WriteRowsChangeOnlyTheirTarget : Prop :=
  ∀ (s t : State) (a : Addr) (v : Byte) (i : Instr), i ∈ writeRows a v → exec i s = .next t →
    { t.block with ram := s.block.ram, sram := s.block.sram, armed := s.block.armed, bank := s.block.bank } = s.block ∧
    t.issued = s.issued ∧ t.operand = s.operand ∧
    t.block.ram.len = s.block.ram.len ∧ t.block.sram.len = s.block.sram.len ∧
    (s.block.loaded = false → t.block = s.block) ∧
    (∀ j, wrDecode s.block a ≠ .ram j → t.block.ram.read j = s.block.ram.read j) ∧
    (∀ j, wrDecode s.block a ≠ .sram j → t.block.sram.read j = s.block.sram.read j) ∧
    ((wrDecode s.block a ≠ .arm ∧ ∀ k, wrDecode s.block a ≠ .banksel k) → t.block.armed = s.block.armed) ∧
    (∀ k : Fin 7, wrDecode s.block a ≠ .banksel k.val → t.block.bank[k] = s.block.bank[k])

/-- R140: in a reachable Loaded block every `poke` returns `OK`, through any of its rows. -/
def Obligations.LoadedPokeAlwaysReturnsOk : Prop :=
  ∀ (s : State) (a : Addr) (v : Byte) (i : Instr), s.block.Inv → s.block.loaded = true → i ∈ writeRows a v →
    ∃ t, exec i s = .next t ∧ t.response = some { status := some .ok, value := none, warn := false }

/-- R148: every store of a `poke` lies inside its array, and not on its last byte. -/
def Obligations.StoresLieInsideTheirArray : Prop :=
  ∀ (b : Block) (a : Addr) (j : Nat), b.Inv → b.loaded = true →
    (wrDecode b a = .ram j → j + 2 ≤ b.ram.len) ∧ (wrDecode b a = .sram j → j + 2 ≤ b.sram.len)

/-- R141: the write decode reads neither `S.armed` nor `S.bank`, nor any array. -/
def Obligations.WriteDecodeIgnoresArmedAndBanks : Prop :=
  ∀ (b d : Block) (a : Addr), b.cfg = d.cfg → b.capable = d.capable → wrDecode b a = wrDecode d a

/-! ### Reads and writes together -/

/-- R61, R257: a byte written to RAM or save RAM is what the next `peek` of that address returns, unless a read rule of higher priority
claims the address. -/
def Obligations.WrittenByteIsReadBack : Prop :=
  ∀ (s t : State) (c : BusConfig) (a : Addr) (v : Byte), s.block.Inv → s.block.loaded = true → s.block.cfg = some c →
    s.block.NoRomRule c a →
    (c.ramStart.toNat ≤ a.toNat → a.toNat + 2 ≤ c.ramEnd.toNat → exec (.wrRam a v) s = .next t →
      exec (.rdRam a) t = .next { t with response := some { status := some .ok, value := some v, warn := false } }) ∧
    (¬ (c.ramStart.toNat ≤ a.toNat ∧ a.toNat ≤ c.ramEnd.toNat) → c.sramPresent = true →
      c.sramStart.toNat ≤ a.toNat → a.toNat + 2 ≤ c.sramEnd.toNat → exec (.wrSram a v) s = .next t →
      exec (.rdSram a) t = .next { t with response := some { status := some .ok, value := some v, warn := false } })

/-- R55 (1): at an address that a ROM rule claims for reads, a RAM write never changes what any `peek` row returns there. -/
def Obligations.RamUnderRomIsWriteOnly : Prop :=
  ∀ (s t : State) (c : BusConfig) (a : Addr) (v : Byte) (i : Instr), s.block.loaded = true → s.block.cfg = some c →
    ¬ s.block.NoRomRule c a → c.ramStart.toNat ≤ a.toNat → a.toNat + 2 ≤ c.ramEnd.toNat → exec (.wrRam a v) s = .next t →
    i ∈ readRows a → ∀ o, exec i s = .next o → exec i t = .next { t with response := o.response }

/-- Part 10, property 5 (R112): on a cartridge that is not capable no `poke` changes what a `peek` of a ROM address returns. -/
def Obligations.IncapablePokesKeepRomReads : Prop :=
  ∀ (s t : State) (a x : Addr) (v : Byte) (i j : Instr), s.block.capable = false → i ∈ writeRows a v → exec i s = .next t →
    (∃ n, rdDecode s.block x = .rom n) → j ∈ readRows x →
    ∀ o, exec j s = .next o → exec j t = .next { t with response := o.response }

/-- Part 10, property 8 (R114): the identity setting of the bank registers reads as the all-zero setting does. -/
def Obligations.IdentityBanksReadAsPassThrough : Prop :=
  ∀ (b : Block) (a : Addr),
    rdDecode { b with bank := #v[1#8, 2#8, 3#8, 4#8, 5#8, 6#8, 7#8] } a
      = rdDecode { b with bank := #v[0#8, 0#8, 0#8, 0#8, 0#8, 0#8, 0#8] } a

/-- R121: what arming a capable cartridge does to the read map. -/
def Obligations.ArmingReplacesTheFlatMap : Prop :=
  ∀ (b : Block) (c : BusConfig) (a : Addr), b.capable = true → b.armed = false → b.cfg = some c →
    (0x3FFFFF < a.toNat → ∀ i, rdDecode { b with armed := true } a ≠ .rom i) ∧
    (a.toNat ≤ 0x3FFFFF → ∃ i, rdDecode { b with armed := true } a = .rom i) ∧
    (a.toNat ≤ 0x3FFFFF → (∀ k : Fin 7, b.bank[k] = 0#8) → rdDecode { b with armed := true } a = .rom a.toNat) ∧
    (c.romStart.toNat ≤ a.toNat → a.toNat ≤ c.romEnd.toNat → rdDecode b a = .rom (a.toNat - c.romStart.toNat))

/-- R258: a 16-bit write split into bytes. At 0xA130F2 the first byte is discarded and the second sets `S.bank[0]`; at 0xA130F4 both go to
`S.bank[1]` and the byte issued last stays. -/
def Obligations.WideRegisterWritesSplitIntoBytes : Prop :=
  ∀ (s t u : State) (c : BusConfig) (x y : Byte), s.block.loaded = true → s.block.capable = true → s.block.cfg = some c →
    (∀ a : Addr, 0xA130F2 ≤ a.toNat → a.toNat ≤ 0xA130F5 → NoRamWrite c a) →
    (exec (.wrDiscard 0x00A130F2 x) s = .next t → exec (.wrBankselF3 0x00A130F3 y) t = .next u →
      u.block = { s.block with armed := true, bank := s.block.bank.set 0 y }) ∧
    (exec (.wrBankselF4 0x00A130F4 x) s = .next t → exec (.wrBankselF4 0x00A130F5 y) t = .next u →
      u.block = { s.block with armed := true, bank := s.block.bank.set 1 y }) ∧
    (exec (.wrBankselF4 0x00A130F5 x) s = .next t → exec (.wrBankselF4 0x00A130F4 y) t = .next u →
      u.block = { s.block with armed := true, bank := s.block.bank.set 1 y })

/-! ### Registers and fields -/

/-- R88: the slot number of a `poke` that reaches the bank-select rule, an integer in -1..6, equally `a[3:1] - 1`. -/
def Obligations.SlotNumberFromAddressBits : Prop :=
  ∀ a : Addr,
    (∀ (b : Block) (c : BusConfig), b.cfg = some c → NoRamWrite c a → b.capable = true → 0xA130F3 ≤ a.toNat →
      a.toNat ≤ 0xA131FF → wrDecode b a = .banksel ((((a.toNat &&& 0xF) >>> 1 : Nat) : Int) - 1)) ∧
    bankSlot a = (((a.toNat &&& 0xF) >>> 1 : Nat) : Int) - 1 ∧ bankSlot a = ((a.extractLsb' 1 3).toNat : Int) - 1 ∧
    -1 ≤ bankSlot a ∧ bankSlot a ≤ 6 ∧ (bankSlot a = -1 ↔ a.toNat % 16 = 0 ∨ a.toNat % 16 = 1)

/-- R90: how many addresses of 0xA130F3..0xA131FF give each slot. -/
def Obligations.SlotAliasCounts : Prop :=
  ((List.range 269).countP (fun k => bankSlot (BitVec.ofNat 32 (0xA130F3 + k)) == -1) = 32) ∧
  ((List.range 269).countP (fun k => bankSlot (BitVec.ofNat 32 (0xA130F3 + k)) == 0) = 33) ∧
  ∀ j : Fin 6, (List.range 269).countP (fun k => bankSlot (BitVec.ofNat 32 (0xA130F3 + k)) == (j.val : Int) + 1) = 34

/-- R83: the banked index is the 27-bit concatenation of the bank value and the offset. -/
def Obligations.BankedIndexIsConcatenation : Prop :=
  ∀ (b : Byte) (a : Addr), b ≠ 0#8 → windowIndex b a = (b ++ addrOff a : BitVec 27).toNat ∧ windowIndex b a ≤ 0x7FFFFFF

/-- R10, R117, R90: under the value `refuse` of its policy, and only in its own case, an operation has no meaning. -/
def Obligations.RefusePoliciesGiveNoMeaning : Prop :=
  (∀ (m : Memory) (i : Nat) (s : State), fetch .refuse m i s = .refused .readOutsideArray ↔ m.len ≤ i) ∧
  (∀ (m : Memory) (i : Nat) (s : State), i < m.len → fetch .refuse m i s = fetch .fault m i s) ∧
  (∀ (a : Addr) (v : Byte) (s : State),
    bankSelect .refuse (bankSlot a) v s = .refused .slotMinusOne ↔ a.toNat % 16 / 2 = 0) ∧
  (∀ (a : Addr) (v : Byte) (s : State), a.toNat % 16 / 2 ≠ 0 →
    bankSelect .refuse (bankSlot a) v s = bankSelect .armOnly (bankSlot a) v s)

/-! ### Lifecycle -/

/-- R172 with R173, R175: a load request whose bounds are in order, whose image is long enough and whose RAMs are at most 1 MiB is
committed whole: configuration, image, zeroed RAM and save RAM, capability, reset mapper. -/
def Obligations.GoodRequestLoads : Prop :=
  ∀ (s : State) (r : LoadRequest) (p : Bool), s.operand = .request r →
    (p = true ↔ (r.sramFlag0 = 0x52#8 ∧ r.sramFlag1 = 0x41#8) ∨ r.sramFlag0 = 0xF8#8) →
    r.romStart.toNat ≤ r.romEnd.toNat → r.romEnd.toNat - r.romStart.toNat ≤ r.rom.len →
    r.ramStart.toNat ≤ r.ramEnd.toNat → r.ramEnd.toNat - r.ramStart.toNat ≤ 0x100000 →
    (p = true → r.sramStart.toNat ≤ r.sramEnd.toNat ∧ r.sramEnd.toNat - r.sramStart.toNat ≤ 0x100000) →
    ∃ t, exec .load s = .next t ∧
      t.response = some { status := some .ok, value := none, warn := false } ∧
      t.issued = s.issued ∧ t.operand = s.operand ∧ t.block.loaded = true ∧
      t.block.cfg = some { romStart := r.romStart, romEnd := r.romEnd, ramStart := r.ramStart, ramEnd := r.ramEnd,
                           sramPresent := p, sramStart := r.sramStart, sramEnd := r.sramEnd } ∧
      t.block.rom = r.rom ∧
      t.block.ram.len = r.ramEnd.toNat - r.ramStart.toNat ∧ (∀ i < t.block.ram.len, t.block.ram.read i = some 0#8) ∧
      t.block.sram.len = (if p then r.sramEnd.toNat - r.sramStart.toNat else 0) ∧
      (∀ i < t.block.sram.len, t.block.sram.read i = some 0#8) ∧
      (t.block.capable = true ↔ 0x400000 < r.rom.len) ∧ t.block.armed = false ∧ ∀ k : Fin 7, t.block.bank[k] = 0#8

/-- R172, R204 (2), R178 (D8), R177 (D18), R174: the failures of `load` in their order, each leaving the block Unloaded. -/
def Obligations.BadRequestFailsInOrder : Prop :=
  ∀ (s : State) (r : LoadRequest) (p : Bool), s.operand = .request r →
    (p = true ↔ (r.sramFlag0 = 0x52#8 ∧ r.sramFlag1 = 0x41#8) ∨ r.sramFlag0 = 0xF8#8) →
    let fails (st : Status) : Prop :=
      exec .load s
        = .next { s with block := Block.reset, response := some { status := some st, value := none, warn := false } }
    (r.romEnd.toNat < r.romStart.toNat → fails .configInvalid) ∧
    (r.romStart.toNat ≤ r.romEnd.toNat →
      (r.rom.len < r.romEnd.toNat - r.romStart.toNat → fails .headerInvalid) ∧
      (r.romEnd.toNat - r.romStart.toNat ≤ r.rom.len →
        (r.ramEnd.toNat < r.ramStart.toNat → fails .configInvalid) ∧
        (r.ramStart.toNat ≤ r.ramEnd.toNat →
          (0x100000 < r.ramEnd.toNat - r.ramStart.toNat → fails .resourceLimitExceeded) ∧
          (r.ramEnd.toNat - r.ramStart.toNat ≤ 0x100000 → p = true →
            (r.sramEnd.toNat < r.sramStart.toNat → fails .configInvalid) ∧
            (0x100000 < r.sramEnd.toNat - r.sramStart.toNat → fails .resourceLimitExceeded)))))

/-- R176: `unload` empties the block and resets the mapper, from any state, and returns no status. -/
def Obligations.UnloadEmptiesTheBlock : Prop :=
  ∀ s : State,
    exec .unload s
      = .next { s with
          block :=
            { loaded := false, cfg := none, rom := { len := 0, cells := [] }, ram := { len := 0, cells := [] },
              sram := { len := 0, cells := [] }, capable := false, armed := false,
              bank := #v[0#8, 0#8, 0#8, 0#8, 0#8, 0#8, 0#8] }
          response := some { status := none, value := none, warn := false } }

/-- R170, R179: the lifecycle's transitions, for block-level and host-level `load` alike; a `load` that fails leaves nothing, also
when a cartridge was loaded before. -/
def Obligations.LifecycleTransitions : Prop :=
  ∀ (s t : State) (tr : Transaction) (rest : List Transaction), s.issued = tr :: rest → step s = .next t →
    (opT tr.word = 3#2 → t.block = Block.reset) ∧
    (opT tr.word = 2#2 →
      ∃ r, t.response = some r ∧
        (r.status ≠ some .ok → t.block = Block.reset) ∧
        (r.status = some .ok →
          t.block.loaded = true ∧ t.block.armed = false ∧ (∀ k : Fin 7, t.block.bank[k] = 0#8) ∧
          (∀ i < t.block.ram.len, t.block.ram.read i = some 0#8) ∧
          (∀ i < t.block.sram.len, t.block.sram.read i = some 0#8) ∧
          ∃ c, t.block.cfg = some c ∧
            (∀ q, tr.operand = .request q →
              c.romStart = q.romStart ∧ c.romEnd = q.romEnd ∧ c.ramStart = q.ramStart ∧ c.ramEnd = q.ramEnd ∧
              c.sramStart = q.sramStart ∧ c.sramEnd = q.sramEnd ∧ c.sramPresent = sramPresentOf q.sramFlag0 q.sramFlag1 ∧
              t.block.rom = q.rom) ∧
            (∀ f, tr.operand = .file f →
              ∃ h k, decodeHeader f.bytes = some h ∧ containerOf f.path = some k ∧
                c.romStart = h.romStart ∧ c.romEnd = h.romEnd ∧ c.ramStart = h.ramStart ∧ c.ramEnd = h.ramEnd ∧
                c.sramStart = h.sramStart ∧ c.sramEnd = h.sramEnd ∧
                c.sramPresent = sramPresentOf (h.sramFlag.getD 0 0#8) (h.sramFlag.getD 1 0#8) ∧
                t.block.rom = assemble k f h))) ∧
    ((opT tr.word).toNat < 2 → t.block.loaded = s.block.loaded ∧ t.block.cfg = s.block.cfg ∧ t.block.rom = s.block.rom ∧
      t.block.capable = s.block.capable)

/-- R175: after a successful `load`, at either level, the mapper is capable exactly when the image is longer than 0x400000 bytes. -/
def Obligations.CapableIffImageOverFourMiB : Prop :=
  ∀ (s t : State), exec .load s = .next t → t.block.loaded = true →
    (t.block.capable = true ↔ 0x400000 < t.block.rom.len) ∧ (∀ r, s.operand = .request r → t.block.rom = r.rom)

/-- R27: exactly which operations set and clear `S.armed`, and that no operation but `peek` reads it. -/
def Obligations.ArmedIsSetAndClearedAsStated : Prop :=
  ∀ (s t : State) (tr : Transaction) (rest : List Transaction), s.issued = tr :: rest → step s = .next t →
    (opT tr.word = 0#2 → t.block.armed = s.block.armed) ∧
    (opT tr.word = 1#2 →
      (t.block.armed = true ↔
        s.block.armed = true ∨
          (s.block.loaded = true ∧ (∀ c, s.block.cfg = some c → NoRamWrite c (addrT tr.word)) ∧
            (addrT tr.word = 0x00A130F1#32 ∨
              (s.block.capable = true ∧ 0xA130F3 ≤ (addrT tr.word).toNat ∧ (addrT tr.word).toNat ≤ 0xA131FF))))) ∧
    (opT tr.word = 2#2 ∨ opT tr.word = 3#2 → t.block.armed = false) ∧
    (opT tr.word ≠ 0#2 → ∀ x, ∃ u, step { s with block := { s.block with armed := x } } = .next u ∧
      { u.block with armed := t.block.armed } = t.block ∧ u.response = t.response)

/-! ### The host's loader -/

/-- R241, R242 (the source's header round-trip, E1): decoding a header laid out as documented gives back every field, whatever
follows it; with fewer bytes there is no header. -/
def Obligations.HeaderRoundTrip : Prop :=
  (∀ (h : Header) (body : List Byte), h.wf → decodeHeader (Memory.ofBytes (h.toBytes ++ body)) = some h) ∧
  (∀ m : Memory, decodeHeader m = none ↔ m.len < 510)

/-- R242: the big-endian fields of a decoded header, by offset. -/
def Obligations.HeaderFieldsAreBigEndian : Prop :=
  ∀ (m : Memory) (h : Header), decodeHeader m = some h →
    let word (o : Nat) : Nat :=
      (m.byteAt o).toNat * 2 ^ 24 + (m.byteAt (o + 1)).toNat * 2 ^ 16 + (m.byteAt (o + 2)).toNat * 2 ^ 8
        + (m.byteAt (o + 3)).toNat
    h.romStart.toNat = word 0x1A0 ∧ h.romEnd.toNat = word 0x1A4 ∧ h.ramStart.toNat = word 0x1A8 ∧
    h.ramEnd.toNat = word 0x1AC ∧ h.sramStart.toNat = word 0x1B3 ∧ h.sramEnd.toNat = word 0x1B7 ∧
    h.checksum.toNat = (m.byteAt 0x18E).toNat * 2 ^ 8 + (m.byteAt 0x18F).toNat ∧
    h.sramFlag = [m.byteAt 0x1B0, m.byteAt 0x1B1]

/-- R245: the checksum is the sum modulo 2^16 of every byte after the header region. -/
def Obligations.ChecksumSumsTheBody : Prop :=
  ∀ m : Memory, m.wf → (checksumOf m).toNat = (∑ i ∈ Finset.Ico 510 m.len, (m.byteAt i).toNat) % 65536

/-- R244, C8: the image of the raw variant is the re-read file, byte for byte; a short second read is padded with zero bytes up to the
declared length. That the split-header variant's image is the second read too, whether or not the two reads agree, is the model's
deduction (log 11, DEDUCED): R244 says that its image is the whole file and does not say which read gives its header bytes. -/
def Obligations.ImageIsTheWholeFile : Prop :=
  ∀ (f : LoadFile) (h : Header), f.reread.wf →
    (h.declaredLen ≤ f.reread.len →
      assemble .raw f h = f.reread ∧
        (510 ≤ f.reread.len → assemble .splitHeader f h = f.reread)) ∧
    ((f.reread.len : Int) < h.declaredLen →
      ((assemble .raw f h).len : Int) = h.declaredLen ∧
        (∀ i < f.reread.len, (assemble .raw f h).read i = f.reread.read i) ∧
        ∀ i, f.reread.len ≤ i → i < (assemble .raw f h).len → (assemble .raw f h).read i = some 0#8)

/-- R243, C7: suffix dispatch without regard to case; no suffix selects the split-header variant. -/
def Obligations.SuffixSelectsContainer : Prop :=
  ∀ (stem suf : List Char),
    (suf.map Char.toLower ∈ [['.', 'b', 'i', 'n'], ['.', 'g', 'e', 'n'], ['.', 'm', 'd']] →
      containerOf (stem ++ suf) = some .raw) ∧
    (suf.map Char.toLower = ['.', 's', 'm', 'd'] → containerOf (stem ++ suf) = none) ∧
    ((∀ x ∈ [['.', 'b', 'i', 'n'], ['.', 'g', 'e', 'n'], ['.', 'm', 'd'], ['.', 's', 'm', 'd']],
        x.isSuffixOf (suf.map Char.toLower) = false) → containerOf suf = none) ∧
    containerOf suf ≠ some .splitHeader

/-- R246: host-level `load(path)`, test by test; past its own tests it is the block-level `load` of the request of R247, with the checksum
warning beside the status (log 15). -/
def Obligations.HostLoadRunsItsTestsInOrder : Prop :=
  ∀ (s : State) (f : LoadFile), s.operand = .file f →
    let fails (st : Status) : Prop :=
      exec .load s
        = .next { s with block := Block.reset, response := some { status := some st, value := none, warn := false } }
    (containerOf f.path = none → fails .unsupportedFormat) ∧
    (∀ k, containerOf f.path = some k →
      (f.bytes.len < 510 → fails .truncatedHeader) ∧
      (∀ h, decodeHeader f.bytes = some h →
        ((f.bytes.len : Int) < (h.romEnd.toNat : Int) - (h.romStart.toNat : Int) → fails .headerInvalid) ∧
        ((h.romEnd.toNat : Int) - (h.romStart.toNat : Int) ≤ f.bytes.len →
          ∃ t u st, exec .load s = .next t ∧
            exec .load { s with operand := .request (requestOf h (assemble k f h)) } = .next u ∧
            u.response = some { status := some st, value := none, warn := false } ∧
            t.response = some { status := some st, value := none,
                                warn := decide (checksumOf (assemble k f h) ≠ h.checksum) } ∧
            t.block = u.block ∧ t.issued = s.issued ∧ t.operand = s.operand)))

/-- R247, R244: the request the host builds: the header's bounds, flag bytes 0x1B0 and 0x1B1, and the whole file as the image. -/
def Obligations.HostRequestCarriesHeaderAndFile : Prop :=
  ∀ (f : LoadFile) (h : Header), f.bytes.wf → f.reread = f.bytes → decodeHeader f.bytes = some h →
    h.declaredLen ≤ f.bytes.len →
    ∀ k, containerOf f.path = some k →
      requestOf h (assemble k f h)
        = { romStart := h.romStart, romEnd := h.romEnd, ramStart := h.ramStart, ramEnd := h.ramEnd,
            sramFlag0 := f.bytes.byteAt 0x1B0, sramFlag1 := f.bytes.byteAt 0x1B1, sramStart := h.sramStart,
            sramEnd := h.sramEnd, rom := f.bytes }

/-! ### Reset and the whole machine -/

/-- R35, R230: the block at reset (power-on is equated with the Unloaded state by the spec's D10; the interface fields are log 2). -/
def Obligations.ResetLeavesTheBlockUnloaded : Prop :=
  State.reset.block.loaded = false ∧ State.reset.block.cfg = none ∧ State.reset.block.rom.len = 0 ∧
  State.reset.block.ram.len = 0 ∧ State.reset.block.sram.len = 0 ∧ State.reset.block.capable = false ∧
  State.reset.block.armed = false ∧ (∀ k : Fin 7, State.reset.block.bank[k] = 0#8) ∧
  State.reset.issued = [] ∧ State.reset.response = none

/-- R36: the invariant holds at reset. -/
def Obligations.InvariantHoldsAtReset : Prop := State.reset.Inv

/-- R36 (a), (b), (d), R24: every step keeps the invariant: an Unloaded block is empty, the arrays have the configured sizes, capability
is the image length's, a set bank register belongs to an armed and capable mapper, and the arrays stay canonical. -/
def Obligations.EveryStepKeepsTheInvariant : Prop := ∀ s t : State, s.Inv → step s = .next t → t.Inv

/-- R14, R91, R148, R200: in every state that meets the invariant the step answers a next state; no step faults or is refused. It says
nothing of what that state holds (EveryStepKeepsTheInvariant does). It rests on the default policies, the spec's decisions D5 and D6
(log 7: a read past its array is a RangeFault; log 8: a bank-select write of slot -1 arms only; both DESIGN CHOICE), and, where nothing
is issued, on log 13 (DESIGN CHOICE: an idle step answers the same state). -/
def Obligations.EveryStepCompletes : Prop := ∀ s : State, s.Inv → ∃ t, step s = .next t

/-- R36 (c), (e): over any number of steps that hold no lifecycle operation, the mapper is never disarmed, and the image, the
configuration and the capability stay as the last `load` left them. -/
def Obligations.RunWithoutLifecycleKeepsLoadAndArming : Prop :=
  ∀ (n : Nat) (s t : State), (∀ tr ∈ s.issued, (opT tr.word).toNat < 2) → Sys2Proof.core.run n s = .next t →
    (s.block.armed = true → t.block.armed = true) ∧ t.block.rom = s.block.rom ∧ t.block.cfg = s.block.cfg ∧
      t.block.capable = s.block.capable ∧ t.block.loaded = s.block.loaded

/-- R61, R36: over a run, reset's block invariant and the completion of every step carry to every state: from a state that meets the
invariant, any number of steps completes, in a state that meets it. It rests on the default policies (logs 7 and 8, DESIGN CHOICE) and,
once the queue is empty, on log 13 (DESIGN CHOICE). -/
def Obligations.EveryRunCompletesInvariantly : Prop :=
  ∀ (n : Nat) (s : State), s.Inv → ∃ t : State, Sys2Proof.core.run n s = .next t ∧ t.Inv
end

