-- ==== Sys2Proof/Laws/State.lean ====
section
/-! SUPPORT. One lemma per field per update, each true by `rfl`, so that no proof unfolds a record update; and the views of updated
states. -/

namespace Sys2Proof.Machine

/-! ### `State.respond` -/

@[simp] theorem State.respond_block (s : State) (r : Response) : (s.respond r).block = s.block := rfl
@[simp] theorem State.respond_issued (s : State) (r : Response) : (s.respond r).issued = s.issued := rfl
@[simp] theorem State.respond_operand (s : State) (r : Response) : (s.respond r).operand = s.operand := rfl
@[simp] theorem State.respond_response (s : State) (r : Response) : (s.respond r).response = some r := rfl

/-! ### `State.withBlock` -/

@[simp] theorem State.withBlock_block (s : State) (b : Block) : (s.withBlock b).block = b := rfl
@[simp] theorem State.withBlock_issued (s : State) (b : Block) : (s.withBlock b).issued = s.issued := rfl
@[simp] theorem State.withBlock_operand (s : State) (b : Block) : (s.withBlock b).operand = s.operand := rfl
@[simp] theorem State.withBlock_response (s : State) (b : Block) : (s.withBlock b).response = s.response := rfl

/-! ### `State.accept` -/

@[simp] theorem State.accept_block (s : State) (t : Transaction) (rest : List Transaction) : (s.accept t rest).block = s.block := rfl
@[simp] theorem State.accept_issued (s : State) (t : Transaction) (rest : List Transaction) : (s.accept t rest).issued = rest := rfl
@[simp] theorem State.accept_operand (s : State) (t : Transaction) (rest : List Transaction) : (s.accept t rest).operand = t.operand := rfl
@[simp] theorem State.accept_response (s : State) (t : Transaction) (rest : List Transaction) : (s.accept t rest).response = s.response := rfl

/-! ### `State.withFetchWord` -/

@[simp] theorem State.withFetchWord_block (s : State) (n w : Nat) : (s.withFetchWord n w).block = s.block := rfl
@[simp] theorem State.withFetchWord_issued (s : State) (n w : Nat) : (s.withFetchWord n w).issued = s.transactionOf (w % 2 ^ n) :: s.issued := rfl
@[simp] theorem State.withFetchWord_operand (s : State) (n w : Nat) : (s.withFetchWord n w).operand = s.operand := rfl
@[simp] theorem State.withFetchWord_response (s : State) (n w : Nat) : (s.withFetchWord n w).response = s.response := rfl

/-! ### `Block.arm` -/

@[simp] theorem Block.arm_loaded (b : Block) : (b.arm).loaded = b.loaded := rfl
@[simp] theorem Block.arm_cfg (b : Block) : (b.arm).cfg = b.cfg := rfl
@[simp] theorem Block.arm_rom (b : Block) : (b.arm).rom = b.rom := rfl
@[simp] theorem Block.arm_ram (b : Block) : (b.arm).ram = b.ram := rfl
@[simp] theorem Block.arm_sram (b : Block) : (b.arm).sram = b.sram := rfl
@[simp] theorem Block.arm_capable (b : Block) : (b.arm).capable = b.capable := rfl
@[simp] theorem Block.arm_armed (b : Block) : (b.arm).armed = true := rfl
@[simp] theorem Block.arm_bank (b : Block) : (b.arm).bank = b.bank := rfl

/-! ### `Block.writeRam` -/

@[simp] theorem Block.writeRam_loaded (b : Block) (i : Nat) (v : Byte) : (b.writeRam i v).loaded = b.loaded := rfl
@[simp] theorem Block.writeRam_cfg (b : Block) (i : Nat) (v : Byte) : (b.writeRam i v).cfg = b.cfg := rfl
@[simp] theorem Block.writeRam_rom (b : Block) (i : Nat) (v : Byte) : (b.writeRam i v).rom = b.rom := rfl
@[simp] theorem Block.writeRam_ram (b : Block) (i : Nat) (v : Byte) : (b.writeRam i v).ram = b.ram.write i v := rfl
@[simp] theorem Block.writeRam_sram (b : Block) (i : Nat) (v : Byte) : (b.writeRam i v).sram = b.sram := rfl
@[simp] theorem Block.writeRam_capable (b : Block) (i : Nat) (v : Byte) : (b.writeRam i v).capable = b.capable := rfl
@[simp] theorem Block.writeRam_armed (b : Block) (i : Nat) (v : Byte) : (b.writeRam i v).armed = b.armed := rfl
@[simp] theorem Block.writeRam_bank (b : Block) (i : Nat) (v : Byte) : (b.writeRam i v).bank = b.bank := rfl

/-! ### `Block.writeSram` -/

@[simp] theorem Block.writeSram_loaded (b : Block) (i : Nat) (v : Byte) : (b.writeSram i v).loaded = b.loaded := rfl
@[simp] theorem Block.writeSram_cfg (b : Block) (i : Nat) (v : Byte) : (b.writeSram i v).cfg = b.cfg := rfl
@[simp] theorem Block.writeSram_rom (b : Block) (i : Nat) (v : Byte) : (b.writeSram i v).rom = b.rom := rfl
@[simp] theorem Block.writeSram_ram (b : Block) (i : Nat) (v : Byte) : (b.writeSram i v).ram = b.ram := rfl
@[simp] theorem Block.writeSram_sram (b : Block) (i : Nat) (v : Byte) : (b.writeSram i v).sram = b.sram.write i v := rfl
@[simp] theorem Block.writeSram_capable (b : Block) (i : Nat) (v : Byte) : (b.writeSram i v).capable = b.capable := rfl
@[simp] theorem Block.writeSram_armed (b : Block) (i : Nat) (v : Byte) : (b.writeSram i v).armed = b.armed := rfl
@[simp] theorem Block.writeSram_bank (b : Block) (i : Nat) (v : Byte) : (b.writeSram i v).bank = b.bank := rfl

/-! ### `Block.unload` -/

@[simp] theorem Block.unload_loaded (b : Block) : (b.unload).loaded = false := rfl
@[simp] theorem Block.unload_cfg (b : Block) : (b.unload).cfg = none := rfl
@[simp] theorem Block.unload_rom (b : Block) : (b.unload).rom = Memory.empty := rfl
@[simp] theorem Block.unload_ram (b : Block) : (b.unload).ram = Memory.empty := rfl
@[simp] theorem Block.unload_sram (b : Block) : (b.unload).sram = Memory.empty := rfl
@[simp] theorem Block.unload_capable (b : Block) : (b.unload).capable = false := rfl
@[simp] theorem Block.unload_armed (b : Block) : (b.unload).armed = false := rfl
@[simp] theorem Block.unload_bank (b : Block) : (b.unload).bank = #v[0#8, 0#8, 0#8, 0#8, 0#8, 0#8, 0#8] := rfl

/-! ### `Block.commit` -/

@[simp] theorem Block.commit_loaded (b : Block) (r : LoadRequest) : (b.commit r).loaded = true := rfl
@[simp] theorem Block.commit_cfg (b : Block) (r : LoadRequest) : (b.commit r).cfg = some r.config := rfl
@[simp] theorem Block.commit_rom (b : Block) (r : LoadRequest) : (b.commit r).rom = r.rom := rfl
@[simp] theorem Block.commit_ram (b : Block) (r : LoadRequest) : (b.commit r).ram = Memory.zeros r.ramSize := rfl
@[simp] theorem Block.commit_sram (b : Block) (r : LoadRequest) : (b.commit r).sram = Memory.zeros r.sramSize := rfl
@[simp] theorem Block.commit_capable (b : Block) (r : LoadRequest) : (b.commit r).capable = capableOf r.rom := rfl
@[simp] theorem Block.commit_armed (b : Block) (r : LoadRequest) : (b.commit r).armed = false := rfl
@[simp] theorem Block.commit_bank (b : Block) (r : LoadRequest) : (b.commit r).bank = #v[0#8, 0#8, 0#8, 0#8, 0#8, 0#8, 0#8] := rfl

/-! ### `Block.setBank` -/

@[simp] theorem Block.setBank_loaded (b : Block) (k : Nat) (v : Byte) : (b.setBank k v).loaded = b.loaded := by
  unfold Block.setBank; split <;> rfl
@[simp] theorem Block.setBank_cfg (b : Block) (k : Nat) (v : Byte) : (b.setBank k v).cfg = b.cfg := by
  unfold Block.setBank; split <;> rfl
@[simp] theorem Block.setBank_rom (b : Block) (k : Nat) (v : Byte) : (b.setBank k v).rom = b.rom := by
  unfold Block.setBank; split <;> rfl
@[simp] theorem Block.setBank_ram (b : Block) (k : Nat) (v : Byte) : (b.setBank k v).ram = b.ram := by
  unfold Block.setBank; split <;> rfl
@[simp] theorem Block.setBank_sram (b : Block) (k : Nat) (v : Byte) : (b.setBank k v).sram = b.sram := by
  unfold Block.setBank; split <;> rfl
@[simp] theorem Block.setBank_capable (b : Block) (k : Nat) (v : Byte) : (b.setBank k v).capable = b.capable := by
  unfold Block.setBank; split <;> rfl
@[simp] theorem Block.setBank_armed (b : Block) (k : Nat) (v : Byte) : (b.setBank k v).armed = b.armed := by
  unfold Block.setBank; split <;> rfl

/-- The written register holds the value. -/
theorem Block.setBank_bank_self (b : Block) (k : Fin 7) (v : Byte) : (b.setBank k v).bank[k] = v := by
  simp [Block.setBank, k.isLt]

/-- The other registers keep theirs. -/
theorem Block.setBank_bank_ne (b : Block) (k : Nat) (j : Fin 7) (v : Byte) (h : (j : Nat) ≠ k) :
    (b.setBank k v).bank[j] = b.bank[j] := by
  unfold Block.setBank
  split
  · simp [Vector.getElem_set_ne, Ne.symm h]
  · rfl

/-- `unload` leaves the reset block, from any block (R35, R176). -/
@[simp] theorem Block.unload_eq_reset (b : Block) : b.unload = Block.reset := rfl

/-! ### Views -/

@[simp] theorem Block.view_loaded (b : Block) : b.view.loaded = b.loaded := rfl
@[simp] theorem Block.view_capable (b : Block) : b.view.capable = b.capable := rfl
@[simp] theorem Block.view_armed (b : Block) : b.view.armed = b.armed := rfl
@[simp] theorem Block.view_cfg (b : Block) : b.view.cfg = b.cfg := rfl
@[simp] theorem Block.view_banked (b : Block) : b.view.banked = b.banked := rfl
@[simp] theorem State.view_eq (s : State) : s.view = s.block.view := rfl

end Sys2Proof.Machine
end

