-- ==== Sys2Proof/Laws/Decode.lean ====
section
/-! SUPPORT. The laws of the transaction word and of the address fields: what each field of a packed word is, and what the bit
patterns of R82 and R85 say of the address as a number. -/

namespace Sys2Proof

/-! ### The word -/

/-- The packed word as a number (R81). -/
theorem packT_toNat (op : BitVec 2) (a : Addr) (d : Byte) :
    (packT op a d).toNat = op.toNat * 2 ^ 40 + a.toNat * 2 ^ 8 + d.toNat := by
  have ha := a.isLt
  have hd := d.isLt
  simp only [packT, BitVec.toNat_append, Nat.shiftLeft_eq]
  rw [← Nat.shiftLeft_eq (op.toNat) 32, ← Nat.shiftLeft_add_eq_or_of_lt ha, ← Nat.shiftLeft_eq _ 8,
    ← Nat.shiftLeft_add_eq_or_of_lt hd]
  simp only [Nat.shiftLeft_eq]
  omega

@[simp] theorem opT_packT (op : BitVec 2) (a : Addr) (d : Byte) : opT (packT op a d) = op := by
  apply BitVec.eq_of_toNat_eq
  have := a.isLt
  have := d.isLt
  have := op.isLt
  simp only [opT, BitVec.extractLsb'_toNat, packT_toNat, Nat.shiftRight_eq_div_pow]
  omega

@[simp] theorem addrT_packT (op : BitVec 2) (a : Addr) (d : Byte) : addrT (packT op a d) = a := by
  apply BitVec.eq_of_toNat_eq
  have := a.isLt
  have := d.isLt
  simp only [addrT, BitVec.extractLsb'_toNat, packT_toNat, Nat.shiftRight_eq_div_pow]
  omega

@[simp] theorem dataT_packT (op : BitVec 2) (a : Addr) (d : Byte) : dataT (packT op a d) = d := by
  apply BitVec.eq_of_toNat_eq
  have := d.isLt
  simp only [dataT, BitVec.extractLsb'_toNat, packT_toNat, Nat.shiftRight_eq_div_pow]
  omega

/-! ### Address fields as numbers (R82) -/

/-- `a[31:22]` is the address divided by 0x400000. -/
theorem addrHi_toNat (a : Addr) : (addrHi a).toNat = a.toNat / 0x400000 := by
  have := a.isLt
  simp only [addrHi, BitVec.extractLsb'_toNat, Nat.shiftRight_eq_div_pow]
  omega

/-- `a[21:19]` is the number of the 512 KiB unit inside its 4 MiB. -/
theorem addrWsel_toNat (a : Addr) : (addrWsel a).toNat = a.toNat / 0x80000 % 8 := by
  simp only [addrWsel, BitVec.extractLsb'_toNat, Nat.shiftRight_eq_div_pow]

/-- `a[18:0]` is the address modulo 0x80000. -/
theorem addrOff_toNat (a : Addr) : (addrOff a).toNat = a.toNat % 0x80000 := by
  simp only [addrOff, BitVec.extractLsb'_toNat, Nat.shiftRight_eq_div_pow, Nat.pow_zero, Nat.div_one]

/-- `hi = 0` is an address of 0x000000..0x3FFFFF. -/
theorem addrHi_eq_zero_iff (a : Addr) : addrHi a = 0#10 ↔ a.toNat ≤ 0x3FFFFF := by
  rw [← BitVec.toNat_inj, addrHi_toNat]
  simp only [BitVec.toNat_ofNat]
  omega

/-! ### The register patterns (R85) -/

/-- Pattern 1 is the one address 0xA130F3. -/
theorem bankselF3Pattern_iff (a : Addr) : bankselF3Pattern a = true ↔ a.toNat = 0xA130F3 := by
  simp [bankselF3Pattern, ← BitVec.toNat_inj]

/-- A word masked by the complement of its low `k` bits is the multiple of `2^k` below it. -/
theorem and_highMask_toNat {n : Nat} (a m : BitVec n) (k : Nat) (hm : m = BitVec.allOnes n <<< k) :
    (a &&& m).toNat = a.toNat / 2 ^ k * 2 ^ k := by
  have h : a &&& m = (a >>> k) <<< k := by
    subst hm
    ext i hi
    simp only [BitVec.getElem_and, BitVec.getElem_shiftLeft, BitVec.getElem_allOnes, BitVec.getElem_ushiftRight]
    by_cases hik : i < k
    · simp [hik]
    · simp [hik, BitVec.getLsbD_eq_getElem hi, Nat.add_sub_cancel' (Nat.le_of_not_lt hik)]
  have ha := a.isLt
  have : a.toNat / 2 ^ k * 2 ^ k < 2 ^ n := Nat.lt_of_le_of_lt (Nat.div_mul_le_self _ _) ha
  rw [h, BitVec.toNat_shiftLeft, BitVec.toNat_ushiftRight, Nat.shiftRight_eq_div_pow, Nat.shiftLeft_eq, Nat.mod_eq_of_lt this]

/-- Pattern 2 is the range 0xA130F4..0xA130F7. -/
theorem bankselF4Pattern_iff (a : Addr) : bankselF4Pattern a = true ↔ 0xA130F4 ≤ a.toNat ∧ a.toNat ≤ 0xA130F7 := by
  simp only [bankselF4Pattern, beq_iff_eq, ← BitVec.toNat_inj, and_highMask_toNat a 0xFFFFFFFC#32 2 (by decide),
    BitVec.toNat_ofNat]
  omega

/-- Pattern 3 is the range 0xA130F8..0xA130FF. -/
theorem bankselF8Pattern_iff (a : Addr) : bankselF8Pattern a = true ↔ 0xA130F8 ≤ a.toNat ∧ a.toNat ≤ 0xA130FF := by
  simp only [bankselF8Pattern, beq_iff_eq, ← BitVec.toNat_inj, and_highMask_toNat a 0xFFFFFFF8#32 3 (by decide),
    BitVec.toNat_ofNat]
  omega

/-- Pattern 4 is the range 0xA13100..0xA131FF. -/
theorem banksel131Pattern_iff (a : Addr) : banksel131Pattern a = true ↔ 0xA13100 ≤ a.toNat ∧ a.toNat ≤ 0xA131FF := by
  simp only [banksel131Pattern, beq_iff_eq, ← BitVec.toNat_inj, and_highMask_toNat a 0xFFFFFF00#32 8 (by decide),
    BitVec.toNat_ofNat]
  omega

/-- The enable register's address as a number. -/
theorem eq_regArm_iff (a : Addr) : a = 0x00A130F1#32 ↔ a.toNat = 0xA130F1 := by simp [← BitVec.toNat_inj]

end Sys2Proof
end

