-- ==== Sys2Proof/Laws/Memory.lean ====
section
/-! SUPPORT. The laws of the arrays: what a read gives after each operation, and that every operation keeps the canonical form. -/

namespace Sys2Proof.Machine

/-! ### Cells -/

/-- An index below every listed one reads 0. -/
theorem lookupCell_eq_zero_of_forall_ne {i : Nat} {l : List Host.Cell} (h : ∀ x ∈ l, x.1 ≠ i) : lookupCell i l = 0#8 := by
  induction l with
  | nil => rfl
  | cons x t ih =>
    obtain ⟨j, w⟩ := x
    have hj : i ≠ j := fun e => h (j, w) (by simp) e.symm
    simp only [lookupCell, if_neg hj]
    exact ih fun x hx => h x (by simp [hx])

/-- A store leaves every other index alone, whatever the list. -/
theorem lookupCell_storeCell_ne {i j : Nat} (v : Byte) (l : List Host.Cell) (h : j ≠ i) :
    lookupCell j (storeCell i v l) = lookupCell j l := by
  induction l with
  | nil => by_cases hv : v = 0#8 <;> simp [storeCell, lookupCell, hv, h]
  | cons x t ih =>
    obtain ⟨k, w⟩ := x
    simp only [storeCell]
    split
    · split <;> simp [lookupCell, h]
    · split
      · rename_i hik
        subst hik
        split <;> simp [lookupCell, h]
      · simp only [lookupCell, ih]

/-- The stored index reads the stored byte, in a rising list. -/
theorem lookupCell_storeCell_self {i : Nat} (v : Byte) {l : List Host.Cell}
    (h : l.Pairwise (fun x y => x.1 < y.1)) : lookupCell i (storeCell i v l) = v := by
  induction l with
  | nil => by_cases hv : v = 0#8 <;> simp [storeCell, lookupCell, hv]
  | cons x t ih =>
    obtain ⟨k, w⟩ := x
    rw [List.pairwise_cons] at h
    have above : ∀ n, n ≤ k → ∀ x ∈ t, x.1 ≠ n := fun n hn x hx => by have := h.1 x hx; simp only at this; omega
    simp only [storeCell]
    split
    · rename_i hik
      split
      · rename_i hv
        rw [hv, lookupCell_eq_zero_of_forall_ne]
        intro x hx
        rcases List.mem_cons.1 hx with rfl | hx
        · simp only; omega
        · exact above i (by omega) x hx
      · simp [lookupCell]
    · split
      · rename_i hik
        split
        · rename_i hv
          rw [hv]
          exact lookupCell_eq_zero_of_forall_ne (above i (by omega))
        · simp [lookupCell]
      · rename_i hne
        simp only [lookupCell, if_neg hne]
        exact ih h.2

/-- Every listed byte after a store is the stored one or was listed before. -/
theorem mem_storeCell {i : Nat} {v : Byte} {l : List Host.Cell} {x : Host.Cell} (h : x ∈ storeCell i v l) :
    (x = (i, v) ∧ v ≠ 0#8) ∨ x ∈ l := by
  induction l with
  | nil =>
    by_cases hv : v = 0#8 <;> simp [storeCell, hv] at h
    exact .inl ⟨h, hv⟩
  | cons y t ih =>
    obtain ⟨k, w⟩ := y
    simp only [storeCell] at h
    split at h
    · split at h
      · exact .inr h
      · rename_i hv
        rcases List.mem_cons.1 h with rfl | h
        · exact .inl ⟨rfl, hv⟩
        · exact .inr h
    · split at h
      · split at h
        · exact .inr (by simp [h])
        · rename_i hv
          rcases List.mem_cons.1 h with rfl | h
          · exact .inl ⟨rfl, hv⟩
          · exact .inr (by simp [h])
      · rcases List.mem_cons.1 h with rfl | h
        · exact .inr (by simp)
        · rcases ih h with h | h
          · exact .inl h
          · exact .inr (by simp [h])

/-- A store keeps the indices rising. -/
theorem storeCell_pairwise {i : Nat} {v : Byte} {l : List Host.Cell} (h : l.Pairwise (fun x y => x.1 < y.1)) :
    (storeCell i v l).Pairwise (fun x y => x.1 < y.1) := by
  induction l with
  | nil => by_cases hv : v = 0#8 <;> simp [storeCell, hv]
  | cons y t ih =>
    obtain ⟨k, w⟩ := y
    have hc := List.pairwise_cons.1 h
    simp only [storeCell]
    split
    · rename_i hik
      split
      · exact h
      · refine List.pairwise_cons.2 ⟨fun x hx => ?_, h⟩
        rcases List.mem_cons.1 hx with rfl | hx
        · exact hik
        · have := hc.1 x hx; simp only at this ⊢; omega
    · split
      · rename_i hik
        split
        · exact hc.2
        · exact List.pairwise_cons.2 ⟨fun x hx => by have := hc.1 x hx; simp only at this ⊢; omega, hc.2⟩
      · rename_i hlt hne
        refine List.pairwise_cons.2 ⟨fun x hx => ?_, ih hc.2⟩
        rcases mem_storeCell hx with ⟨rfl, -⟩ | hx
        · simp only; omega
        · exact hc.1 x hx

/-- A listed byte is what its index reads. -/
theorem lookupCell_of_mem {l : List Host.Cell} (h : l.Pairwise (fun x y => x.1 < y.1)) {x : Host.Cell} (hx : x ∈ l) :
    lookupCell x.1 l = x.2 := by
  induction l with
  | nil => cases hx
  | cons y t ih =>
    have hc := List.pairwise_cons.1 h
    rcases List.mem_cons.1 hx with rfl | hx
    · simp [lookupCell]
    · have := hc.1 x hx
      simp only [lookupCell, if_neg (show x.1 ≠ y.1 by omega)]
      exact ih hc.2 hx

/-! ### Arrays -/

@[simp] theorem Memory.write_len (m : Memory) (i : Nat) (v : Byte) : (m.write i v).len = m.len := rfl
@[simp] theorem Memory.zeros_len (n : Nat) : (Memory.zeros n).len = n := rfl
@[simp] theorem Memory.empty_len : Memory.empty.len = 0 := rfl
@[simp] theorem Memory.padTo_len (m : Memory) (n : Nat) : (m.padTo n).len = max m.len n := rfl
@[simp] theorem Memory.take_len (m : Memory) (n : Nat) : (m.take n).len = min n m.len := rfl
@[simp] theorem Memory.drop_len (m : Memory) (n : Nat) : (m.drop n).len = m.len - n := rfl
@[simp] theorem Memory.append_len (m k : Memory) : (m.append k).len = m.len + k.len := rfl
@[simp] theorem Memory.ofBytes_len (l : List Byte) : (Memory.ofBytes l).len = l.length := rfl

/-- An index has a byte exactly when it is inside the length (R13). -/
theorem Memory.read_isSome_iff {m : Memory} {i : Nat} : (m.read i).isSome = true ↔ i < m.len := by
  unfold Memory.read; split <;> simp [*]

/-- Past the length there is no byte (R13). -/
theorem Memory.read_eq_none {m : Memory} {i : Nat} (h : m.len ≤ i) : m.read i = none := by
  simp [Memory.read, Nat.not_lt.2 h]

/-- Inside the length there is one. -/
theorem Memory.read_eq_some {m : Memory} {i : Nat} (h : i < m.len) : m.read i = some (lookupCell i m.cells) := by
  simp [Memory.read, h]

/-- The byte written is read back. -/
theorem Memory.read_write_self {m : Memory} {i : Nat} (v : Byte) (hm : m.wf) (h : i < m.len) :
    (m.write i v).read i = some v := by
  simp [Memory.read, Memory.write, h, lookupCell_storeCell_self v hm.1]

/-- Every other index reads as before. -/
theorem Memory.read_write_ne {m : Memory} {i j : Nat} (v : Byte) (h : j ≠ i) : (m.write i v).read j = m.read j := by
  simp [Memory.read, Memory.write, lookupCell_storeCell_ne v m.cells h]

/-- A write inside the array keeps the canonical form. -/
theorem Memory.write_wf {m : Memory} {i : Nat} {v : Byte} (hm : m.wf) (h : i < m.len) : (m.write i v).wf := by
  refine ⟨storeCell_pairwise hm.1, fun x hx => ?_⟩
  rcases mem_storeCell hx with ⟨rfl, hv⟩ | hx
  · exact ⟨h, hv⟩
  · exact hm.2 x hx

/-- The empty array is in canonical form. -/
theorem Memory.empty_wf : Memory.empty.wf := by simp [Memory.wf, Memory.empty]

/-- A zeroed array is in canonical form. -/
theorem Memory.zeros_wf (n : Nat) : (Memory.zeros n).wf := by simp [Memory.wf, Memory.zeros]

/-- A zeroed array reads 0 everywhere (R24, R25). -/
theorem Memory.read_zeros {n i : Nat} (h : i < n) : (Memory.zeros n).read i = some 0#8 := by
  simp [Memory.read, Memory.zeros, h, lookupCell]

/-- Padding keeps the canonical form. -/
theorem Memory.padTo_wf {m : Memory} {n : Nat} (hm : m.wf) : (m.padTo n).wf :=
  ⟨hm.1, fun x hx => ⟨Nat.lt_of_lt_of_le (hm.2 x hx).1 (Nat.le_max_left _ _), (hm.2 x hx).2⟩⟩

/-- Taking a front part keeps the canonical form. -/
theorem Memory.take_wf {m : Memory} {n : Nat} (hm : m.wf) : (m.take n).wf := by
  refine ⟨hm.1.filter _, fun x hx => ?_⟩
  have hx' := List.mem_filter.1 hx
  exact ⟨Nat.lt_min.2 ⟨by simpa using hx'.2, (hm.2 x hx'.1).1⟩, (hm.2 x hx'.1).2⟩

/-- Dropping a front part keeps the canonical form. -/
theorem Memory.drop_wf {m : Memory} {n : Nat} (hm : m.wf) : (m.drop n).wf := by
  constructor
  · refine List.pairwise_map.2 ((hm.1.filter _).imp_of_mem fun {x y} hx hy h => ?_)
    have h1 := (List.mem_filter.1 hx).2
    have h2 := (List.mem_filter.1 hy).2
    simp only [decide_eq_true_eq] at h1 h2 ⊢
    omega
  · intro x hx
    obtain ⟨y, hy, rfl⟩ := List.mem_map.1 hx
    have hy' := List.mem_filter.1 hy
    have h1 := hm.2 y hy'.1
    have h2 := hy'.2
    simp only [decide_eq_true_eq] at h2
    exact ⟨by simp only [Memory.drop_len]; omega, h1.2⟩

/-- Joining two arrays keeps the canonical form. -/
theorem Memory.append_wf {m k : Memory} (hm : m.wf) (hk : k.wf) : (m.append k).wf := by
  constructor
  · refine List.pairwise_append.2 ⟨hm.1, List.pairwise_map.2 (hk.1.imp fun h => ?_), fun x hx y hy => ?_⟩
    · simp only; omega
    · obtain ⟨z, -, rfl⟩ := List.mem_map.1 hy
      have := (hm.2 x hx).1
      simp only; omega
  · intro x hx
    rcases List.mem_append.1 hx with hx | hx
    · exact ⟨Nat.lt_of_lt_of_le (hm.2 x hx).1 (by simp), (hm.2 x hx).2⟩
    · obtain ⟨z, hz, rfl⟩ := List.mem_map.1 hx
      have := hk.2 z hz
      exact ⟨by simp only [Memory.append_len]; omega, this.2⟩

/-! ### Arrays of listed bytes -/

/-- The listed byte at an index is the list's. -/
theorem lookupCell_cellsOf (l : List Byte) (i j : Nat) :
    lookupCell j (cellsOf i l) = if i ≤ j then (l[j - i]?).getD 0#8 else 0#8 := by
  induction l generalizing i with
  | nil => simp [cellsOf, lookupCell]
  | cons v t ih =>
    have later : i < j → ((v :: t)[j - i]?).getD 0#8 = (t[j - (i + 1)]?).getD 0#8 := fun h => by
      rw [show j - i = (j - (i + 1)) + 1 by omega, List.getElem?_cons_succ]
    have here : lookupCell j (cellsOf i (v :: t)) = if j = i then v else lookupCell j (cellsOf (i + 1) t) := by
      simp only [cellsOf]
      split
      · rename_i hv
        split
        · rename_i hj
          rw [ih, if_neg (by omega), hv]
        · rfl
      · rfl
    rw [here, ih]
    rcases Nat.lt_trichotomy i j with h | h | h
    · rw [if_neg (by omega), if_pos (by omega), if_pos (by omega), later h]
    · subst h; simp
    · rw [if_neg (by omega), if_neg (by omega), if_neg (by omega)]

/-- Byte `i` of an array of listed bytes is the list's. -/
theorem Memory.byteAt_ofBytes (l : List Byte) (i : Nat) : (Memory.ofBytes l).byteAt i = (l[i]?).getD 0#8 := by
  unfold Memory.byteAt Memory.read Memory.ofBytes
  by_cases h : i < l.length
  · simp [h, lookupCell_cellsOf]
  · simp [h]

/-- Every listed byte of `cellsOf` comes from its index. -/
theorem mem_cellsOf {l : List Byte} {i : Nat} {x : Host.Cell} (h : x ∈ cellsOf i l) :
    i ≤ x.1 ∧ x.1 < i + l.length ∧ x.2 ≠ 0#8 := by
  induction l generalizing i with
  | nil => simp [cellsOf] at h
  | cons v t ih =>
    simp only [cellsOf] at h
    split at h
    · have := ih h; simp only [List.length_cons]; refine ⟨?_, ?_, this.2.2⟩ <;> omega
    · rename_i hv
      rcases List.mem_cons.1 h with rfl | h
      · exact ⟨le_refl _, by simp, hv⟩
      · have := ih h; simp only [List.length_cons]; refine ⟨?_, ?_, this.2.2⟩ <;> omega

/-- An array of listed bytes is in canonical form. -/
theorem Memory.ofBytes_wf (l : List Byte) : (Memory.ofBytes l).wf := by
  have rising : ∀ i (l : List Byte), (cellsOf i l).Pairwise (fun x y => x.1 < y.1) := by
    intro i l
    induction l generalizing i with
    | nil => exact .nil
    | cons v t ih =>
      simp only [cellsOf]
      split
      · exact ih _
      · exact List.pairwise_cons.2 ⟨fun x hx => (mem_cellsOf hx).1, ih _⟩
  exact ⟨rising 0 l, fun x hx => ⟨by simpa using (mem_cellsOf hx).2.1, (mem_cellsOf hx).2.2⟩⟩

end Sys2Proof.Machine
end

