-- ==== Sys2Proof/Laws/Loader.lean ====
section
/-! SUPPORT. The laws of the host's loader: header fields of listed bytes, the big-endian fields as numbers, the image assembly, the
sum over listed bytes, and the suffix table read as tests. -/

namespace Sys2Proof.Machine

/-! ### Header fields -/

/-- A 32-bit field as a number (R242). -/
theorem Memory.be32_toNat (m : Memory) (o : Nat) :
    (m.be32 o).toNat
      = (m.byteAt o).toNat * 2 ^ 24 + (m.byteAt (o + 1)).toNat * 2 ^ 16 + (m.byteAt (o + 2)).toNat * 2 ^ 8
        + (m.byteAt (o + 3)).toNat := by
  have := (m.byteAt (o + 1)).isLt
  have := (m.byteAt (o + 2)).isLt
  have := (m.byteAt (o + 3)).isLt
  simp only [Memory.be32, BitVec.toNat_append, Nat.shiftLeft_eq]
  rw [← Nat.shiftLeft_eq _ 8, ← Nat.shiftLeft_add_eq_or_of_lt (by omega), ← Nat.shiftLeft_eq _ 8,
    ← Nat.shiftLeft_add_eq_or_of_lt (by omega), ← Nat.shiftLeft_eq _ 8, ← Nat.shiftLeft_add_eq_or_of_lt (by omega)]
  simp only [Nat.shiftLeft_eq]
  omega

/-- A 16-bit field as a number (R242). -/
theorem Memory.be16_toNat (m : Memory) (o : Nat) :
    (m.be16 o).toNat = (m.byteAt o).toNat * 2 ^ 8 + (m.byteAt (o + 1)).toNat := by
  have := (m.byteAt (o + 1)).isLt
  simp only [Memory.be16, BitVec.toNat_append, Nat.shiftLeft_eq]
  rw [← Nat.shiftLeft_eq _ 8, ← Nat.shiftLeft_add_eq_or_of_lt (by omega), Nat.shiftLeft_eq]

/-- A byte of the middle part of listed bytes. -/
theorem Memory.byteAt_middle {pre f post : List Byte} {off k : Nat} (h1 : pre.length = off) (h2 : k < f.length) :
    (Memory.ofBytes (pre ++ (f ++ post))).byteAt (off + k) = f[k] := by
  rw [Memory.byteAt_ofBytes, List.getElem?_append_right (by omega), List.getElem?_append_left (by omega), h1,
    Nat.add_sub_cancel_left, List.getElem?_eq_getElem h2]
  rfl

/-- The slice that is the middle part of listed bytes. -/
theorem Memory.slice_middle {pre f post : List Byte} {off n : Nat} (h1 : pre.length = off) (h2 : f.length = n) :
    (Memory.ofBytes (pre ++ (f ++ post))).slice off n = f := by
  apply List.ext_getElem
  · simp [Memory.slice, h2]
  · intro i hi hi'
    simp only [Memory.slice, List.getElem_map, List.getElem_range]
    exact Memory.byteAt_middle h1 hi'

/-- The 32-bit field that stands in the middle of listed bytes. -/
theorem Memory.be32_middle {pre post : List Byte} {x : BitVec 32} {off : Nat} (h : pre.length = off) :
    (Memory.ofBytes (pre ++ (be32Bytes x ++ post))).be32 off = x := by
  apply BitVec.eq_of_toNat_eq
  have := x.isLt
  rw [Memory.be32_toNat, Memory.byteAt_middle h (k := 1) (by simp [be32Bytes]),
    Memory.byteAt_middle h (k := 2) (by simp [be32Bytes]), Memory.byteAt_middle h (k := 3) (by simp [be32Bytes])]
  have h0 := Memory.byteAt_middle (f := be32Bytes x) (post := post) h (k := 0) (by simp [be32Bytes])
  rw [Nat.add_zero] at h0
  rw [h0]
  simp [be32Bytes, Nat.shiftRight_eq_div_pow]
  omega

/-- The 16-bit field that stands in the middle of listed bytes. -/
theorem Memory.be16_middle {pre post : List Byte} {x : BitVec 16} {off : Nat} (h : pre.length = off) :
    (Memory.ofBytes (pre ++ (be16Bytes x ++ post))).be16 off = x := by
  apply BitVec.eq_of_toNat_eq
  have := x.isLt
  rw [Memory.be16_toNat, Memory.byteAt_middle h (k := 1) (by simp [be16Bytes])]
  have h0 := Memory.byteAt_middle (f := be16Bytes x) (post := post) h (k := 0) (by simp [be16Bytes])
  rw [Nat.add_zero] at h0
  rw [h0]
  simp [be16Bytes, Nat.shiftRight_eq_div_pow]
  omega

/-! ### Image assembly -/

/-- Reading a padded file: its own bytes, then zeros up to the new length (R244). -/
theorem Memory.read_padTo {m : Memory} (hm : m.wf) (n i : Nat) :
    (m.padTo n).read i = if i < m.len then m.read i else if i < n then some 0#8 else none := by
  have hz : m.len ≤ i → lookupCell i m.cells = 0#8 := fun h =>
    lookupCell_eq_zero_of_forall_ne (fun x hx => by have := (hm.2 x hx).1; omega)
  unfold Memory.read
  by_cases h : i < m.len
  · simp [h, Memory.padTo]
  · have := hz (by omega)
    simp [h, Memory.padTo, this]

/-- A rising list is its part below an index and the rest. -/
theorem filter_lt_append_filter_ge {l : List Host.Cell} (h : l.Pairwise (fun x y => x.1 < y.1)) (n : Nat) :
    l.filter (fun x => decide (x.1 < n)) ++ l.filter (fun x => decide (n ≤ x.1)) = l := by
  induction l with
  | nil => rfl
  | cons y t ih =>
    have hc := List.pairwise_cons.1 h
    have ih' := ih hc.2
    by_cases hy : y.1 < n
    · simp [hy, Nat.not_le.2 hy, ih']
    · have : t.filter (fun x => decide (x.1 < n)) = [] := by
        rw [List.filter_eq_nil_iff]
        intro x hx
        have := hc.1 x hx
        simp
        omega
      rw [this] at ih'
      simp only [List.filter_cons, hy, this]
      simp [Nat.le_of_not_lt hy]
      simpa using ih'

/-- The two parts of a file, joined, are the file (R244, the split-header variant). -/
theorem Memory.take_append_drop {m : Memory} {n : Nat} (hm : m.wf) (h : n ≤ m.len) : (m.take n).append (m.drop n) = m := by
  have h2 : (m.drop n).cells.map (fun x => ((m.take n).len + x.1, x.2)) = m.cells.filter (fun x => decide (n ≤ x.1)) := by
    simp only [Memory.drop, List.map_map, Memory.take_len, Nat.min_eq_left h]
    conv_rhs => rw [← List.map_id (m.cells.filter _)]
    apply List.map_congr_left
    intro x hx
    have := (List.mem_filter.1 hx).2
    simp at this
    ext <;> simp
    omega
  have h3 : (m.take n).len + (m.drop n).len = m.len := by simp; omega
  unfold Memory.append
  rw [h2, h3]
  simp only [Memory.take, filter_lt_append_filter_ge hm.1]

/-- Image assembly keeps the canonical form. -/
theorem assemble_wf {c : Container} {f : LoadFile} {h : Header} (hf : f.reread.wf) : (assemble c f h).wf := by
  cases c
  · exact Memory.padTo_wf hf
  · exact Memory.append_wf (Memory.take_wf hf) (Memory.drop_wf hf)

/-- The sum over the listed bytes is the sum over all indices: the others are 0. -/
theorem sum_listed {l : List Host.Cell} (h : l.Pairwise (fun x y => x.1 < y.1)) (lo hi : Nat) (hb : ∀ x ∈ l, x.1 < hi) :
    ((l.filter (fun x => decide (lo ≤ x.1))).map (fun x => x.2.toNat)).sum
      = ∑ i ∈ Finset.Ico lo hi, (lookupCell i l).toNat := by
  induction l with
  | nil => simp [lookupCell]
  | cons y t ih =>
    obtain ⟨k, w⟩ := y
    have hc := List.pairwise_cons.1 h
    have hk : k < hi := hb (k, w) (by simp)
    have ih' := ih hc.2 (fun x hx => hb x (by simp [hx]))
    have hz : lookupCell k t = 0#8 :=
      lookupCell_eq_zero_of_forall_ne (fun x hx => by have := hc.1 x hx; simp only at this; omega)
    have e : ∀ i, (lookupCell i ((k, w) :: t)).toNat = (if i = k then w.toNat else 0) + (lookupCell i t).toNat := by
      intro i
      rw [show lookupCell i ((k, w) :: t) = if i = k then w else lookupCell i t from rfl]
      split
      · rename_i h; subst h; simp [hz]
      · simp
    simp only [e, Finset.sum_add_distrib, ← ih', Finset.sum_ite_eq', Finset.mem_Ico]
    by_cases hlo : lo ≤ k <;> simp [hlo, hk]

/-! ### Suffix dispatch -/

/-- The suffix table as a chain of tests (R243). -/
theorem containerOf_eq (path : List Char) :
    containerOf path
      = if ['.', 'b', 'i', 'n'].isSuffixOf (path.map Char.toLower) then some .raw
        else if ['.', 'g', 'e', 'n'].isSuffixOf (path.map Char.toLower) then some .raw
        else if ['.', 'm', 'd'].isSuffixOf (path.map Char.toLower) then some .raw else none := by
  unfold containerOf suffixTable
  generalize path.map Char.toLower = q
  simp only [List.find?_cons]
  split_ifs with h1 h2 h3
  · simp [h1]
  · simp [h1, h2]
  · simp [h1, h2, h3]
  · simp only [h1, h2, h3]
    split
    · rename_i heq
      split at heq
      · injection heq with heq; subst heq; rfl
      · simp at heq
    · rfl

end Sys2Proof.Machine
end

