-- ==== Sys2Proof/Laws/Ops.lean ====
section
/-! SUPPORT. One lemma per shared operation that says everything it can do: how an operation ends, what a read returns, what each
decode resolves to, and what a `poke` or a `load` that answers a next state leaves. -/

namespace Sys2Proof.Machine

/-! ### Ending an operation -/

/-- `return OK` with the block as the operation leaves it, as a record. -/
theorem finish_eq (b : Block) (s : State) :
    finish b s = .next { s with block := b, response := some { status := some .ok, value := none, warn := false } } := rfl

/-- `raise <Status>`, as a record: nothing but the response changes. -/
theorem raiseStatus_eq (st : Status) (s : State) :
    raiseStatus st s = .next { s with response := some { status := some st, value := none, warn := false } } := rfl

/-! ### The read path -/

/-- `fetch` where the byte exists (R117). -/
theorem fetch_of_read {pol : OorPolicy} {m : Memory} {i : Nat} {s : State} {v : Byte} (h : m.read i = some v) :
    fetch pol m i s = .next { s with response := some { status := some .ok, value := some v, warn := false } } := by
  unfold fetch; rw [h]; rfl

/-- `fetch` under the default policy, in both its cases (R117). -/
theorem fetch_returns (m : Memory) (i : Nat) (s : State) : ReturnsByteOf m i s (fetch .fault m i s) := by
  refine ⟨fun h => ⟨_, Memory.read_eq_some h, fetch_of_read (Memory.read_eq_some h)⟩, fun h => ?_⟩
  unfold fetch; rw [Memory.read_eq_none h]; rfl

/-- What `fetch` answers depends on the array and the index alone, and only the response changes. -/
theorem fetch_responds (m : Memory) (i : Nat) : ∃ r : Response, ∀ s : State, fetch .fault m i s = .next (s.respond r) := by
  unfold fetch
  split <;> exact ⟨_, fun _ => rfl⟩

/-- A `peek` under the default policy always answers, with one of four statuses, and a byte exactly with `OK` (R110, R204). -/
theorem peek_responds (a : Addr) (s : State) :
    ∃ r : Response, peek .fault a s = .next (s.respond r) ∧ r.warn = false ∧
      (r.status = some .ok ∨ r.status = some .busError ∨ r.status = some .notLoaded ∨ r.status = some .rangeFault) ∧
      (r.value.isSome = true ↔ r.status = some .ok) := by
  have hf : ∀ m i, ∃ r : Response, fetch .fault m i s = .next (s.respond r) ∧ r.warn = false ∧
      (r.status = some .ok ∨ r.status = some .busError ∨ r.status = some .notLoaded ∨ r.status = some .rangeFault) ∧
      (r.value.isSome = true ↔ r.status = some .ok) := by
    intro m i
    unfold fetch
    split
    · exact ⟨_, rfl, rfl, by simp [Response.ofByte], by simp [Response.ofByte]⟩
    · exact ⟨_, rfl, rfl, by simp [Response.ofStatus], by simp [Response.ofStatus]⟩
  unfold peek
  split
  · exact ⟨_, rfl, rfl, by simp [Response.ofStatus], by simp [Response.ofStatus]⟩
  · split
    · exact ⟨_, rfl, rfl, by simp [Response.ofStatus], by simp [Response.ofStatus]⟩
    · exact hf _ _
    · exact hf _ _
    · exact hf _ _

/-- A bank register by its number. -/
@[simp] theorem Block.bankReg_fin (b : Block) (n : Fin 7) : b.bankReg n.val = b.bank[n] := by simp [Block.bankReg, n.isLt]

/-- The high part of the address is its 512 KiB unit. -/
theorem addr_shift19 (a : Addr) : a.toNat >>> 19 = a.toNat / 0x80000 := by simp [Nat.shiftRight_eq_div_pow]

/-- The mask of R111 is the remainder in the 512 KiB unit. -/
theorem addr_and_mask19 (a : Addr) : a.toNat &&& 0x7FFFF = a.toNat % 0x80000 := Nat.and_two_pow_sub_one_eq_mod a.toNat 19

/-- The read decode of flat ROM (R112). -/
theorem rdDecode_flat {b : Block} {c : BusConfig} {a : Addr} (hb : b.banked = false) (hc : b.cfg = some c)
    (h1 : c.romStart.toNat ≤ a.toNat) (h2 : a.toNat ≤ c.romEnd.toNat) : rdDecode b a = .rom (a.toNat - c.romStart.toNat) := by
  simp [rdDecode, hb, View.inFlat, hc, h1, h2, Block.romStart]

/-- The read decode of the fixed window (R113). -/
theorem rdDecode_fixed {b : Block} {a : Addr} (hb : b.banked = true) (h : a.toNat ≤ 0x7FFFF) : rdDecode b a = .rom a.toNat := by
  simp [rdDecode, hb, h]

/-- The read decode of banked window `n` (R114): the window number the algorithm computes is the row's. -/
theorem rdDecode_window {b : Block} {a : Addr} {n : Nat} (hb : b.banked = true) (h : inWindow n a = true) (hn : n < 7) :
    rdDecode b a = .rom (windowIndex (b.bankReg n) a) := by
  simp only [inWindow, Bool.and_eq_true, decide_eq_true_eq, Config.winBase, Config.winSize] at h
  have h1 : a.toNat >>> 19 - 1 = n := by rw [addr_shift19]; omega
  have h2 : inRange 0 0x07FFFF a = false := by simp [inRange]; omega
  have h3 : inRange 0x080000 0x3FFFFF a = true := by simp [inRange]; omega
  simp only [rdDecode, h1, hb, h2, h3, windowIndex, addrOff_toNat, addr_and_mask19, Config.winSize]
  by_cases h0 : b.bankReg n = 0#8 <;> simp [h0]

/-- An address above the fixed window and below 0x400000 lies in the window of its 512 KiB unit. -/
theorem inWindow_of_range {a : Addr} (h1 : 0x7FFFF < a.toNat) (h2 : a.toNat ≤ 0x3FFFFF) :
    inWindow (a.toNat / 0x80000 - 1) a = true ∧ a.toNat / 0x80000 - 1 < 7 := by
  refine ⟨?_, by omega⟩
  simp
  omega

/-- The statements' "no ROM rule claims the address" is the decoder's. -/
theorem noRomRule_iff {b : Block} {c : BusConfig} {a : Addr} (hc : b.cfg = some c) :
    b.NoRomRule c a ↔ b.view.romClaims a = false := by
  simp only [Block.NoRomRule, View.romClaims, Block.view_banked, Block.banked, View.inFlat, Block.view_cfg, hc]
  rcases b.capable <;> rcases b.armed <;> simp

/-- The read decode where no ROM rule claims the address (R115, R116, R118). -/
theorem rdDecode_noRom {b : Block} {c : BusConfig} {a : Addr} (hc : b.cfg = some c) (h : b.NoRomRule c a) :
    rdDecode b a
      = if b.view.inRamRead a then .ram (a.toNat - b.ramStart)
        else if b.view.inSramRead a then .sram (a.toNat - b.sramStart) else .unmapped := by
  have h' := (noRomRule_iff hc).1 h
  simp only [View.romClaims, Block.view_banked] at h'
  rcases hb : b.banked
  · simp only [hb, Bool.not_false, Bool.true_and, Bool.false_and, Bool.or_false] at h'
    simp [rdDecode, hb, h']
  · simp only [hb, Bool.not_true, Bool.false_and, Bool.true_and, Bool.false_or, decide_eq_false_iff_not, Config.winTop] at h'
    have e1 : inRange 0 0x07FFFF a = false := by simp [inRange]; omega
    have e2 : inRange 0x080000 0x3FFFFF a = false := by simp [inRange]; omega
    simp only [rdDecode, hb, e1, e2]
    simp

/-- The read decode where a ROM rule claims the address: some index of the image (R112 to R114). -/
theorem rdDecode_rom {b : Block} {c : BusConfig} {a : Addr} (hc : b.cfg = some c) (h : ¬ b.NoRomRule c a) :
    ∃ n, rdDecode b a = .rom n := by
  have h' : b.view.romClaims a = true := by simpa using mt (noRomRule_iff hc).2 h
  simp only [View.romClaims, Block.view_banked] at h'
  rcases hb : b.banked
  · simp [hb] at h'
    exact ⟨_, by simp [rdDecode, hb, h']; rfl⟩
  · simp [hb] at h'
    by_cases hf : a.toNat ≤ 0x7FFFF
    · exact ⟨_, rdDecode_fixed hb hf⟩
    · exact ⟨_, rdDecode_window hb (inWindow_of_range (by omega) h').1 (inWindow_of_range (by omega) h').2⟩

/-- A read that resolves to the same index of the same image returns the same, whatever else differs. -/
theorem peek_of_same_rom {s t : State} {a : Addr} {n : Nat} (hs : rdDecode s.block a = .rom n)
    (ht : rdDecode t.block a = .rom n) (hr : t.block.rom = s.block.rom) (hl : t.block.loaded = s.block.loaded) {o : State}
    (h : peek .fault a s = .next o) : peek .fault a t = .next { t with response := o.response } := by
  unfold peek at h ⊢
  rw [hl, ht, hr]
  rw [hs] at h
  split at h
  · rename_i h1; rw [if_pos h1]; injection h with h; subst h; rfl
  · rename_i h1
    rw [if_neg h1]
    obtain ⟨r, hr⟩ := fetch_responds s.block.rom n
    simp only [hr] at h ⊢
    injection h with h; subst h; rfl

/-! ### The write path -/

/-- The RAM write window in the terms of the rule (R142). -/
theorem inRamWrite_iff {b : Block} {c : BusConfig} {a : Addr} (hc : b.cfg = some c) :
    b.view.inRamWrite a = true ↔ c.ramStart.toNat ≤ a.toNat ∧ a.toNat + 2 ≤ c.ramEnd.toNat := by
  simp [View.inRamWrite, hc]

/-- The save-RAM write window in the terms of the rule (R143). -/
theorem inSramWrite_iff {b : Block} {c : BusConfig} {a : Addr} (hc : b.cfg = some c) :
    b.view.inSramWrite a = true ↔ c.sramPresent = true ∧ c.sramStart.toNat ≤ a.toNat ∧ a.toNat + 2 ≤ c.sramEnd.toNat := by
  simp [View.inSramWrite, hc]

/-- The statements' "neither write window claims the address" is the decoder's. -/
theorem noRamWrite_iff {b : Block} {c : BusConfig} {a : Addr} (hc : b.cfg = some c) :
    NoRamWrite c a ↔ b.view.ramClaims a = false := by
  rw [View.ramClaims, Bool.or_eq_false_iff, ← Bool.not_eq_true, ← Bool.not_eq_true, inRamWrite_iff hc, inSramWrite_iff hc]
  rfl

/-- The write decode of the RAM window (R142). -/
theorem wrDecode_ram {b : Block} {c : BusConfig} {a : Addr} (hc : b.cfg = some c) (h1 : c.ramStart.toNat ≤ a.toNat)
    (h2 : a.toNat + 2 ≤ c.ramEnd.toNat) : wrDecode b a = .ram (a.toNat - c.ramStart.toNat) := by
  rw [wrDecode, if_pos ((inRamWrite_iff hc).2 ⟨h1, h2⟩)]
  simp [Block.ramStart, hc]

/-- The write decode of the save-RAM window (R143). -/
theorem wrDecode_sram {b : Block} {c : BusConfig} {a : Addr} (hc : b.cfg = some c)
    (h0 : ¬ (c.ramStart.toNat ≤ a.toNat ∧ a.toNat + 2 ≤ c.ramEnd.toNat)) (hp : c.sramPresent = true)
    (h1 : c.sramStart.toNat ≤ a.toNat) (h2 : a.toNat + 2 ≤ c.sramEnd.toNat) :
    wrDecode b a = .sram (a.toNat - c.sramStart.toNat) := by
  rw [wrDecode, if_neg (mt (inRamWrite_iff hc).1 h0), if_pos ((inSramWrite_iff hc).2 ⟨hp, h1, h2⟩)]
  simp [Block.sramStart, hc]

/-- The write decode of the enable register (R144). -/
theorem wrDecode_arm {b : Block} {c : BusConfig} {a : Addr} (hc : b.cfg = some c) (hn : NoRamWrite c a)
    (h : a.toNat = 0xA130F1) : wrDecode b a = .arm := by
  have := (noRamWrite_iff hc).1 hn
  simp only [View.ramClaims, Bool.or_eq_false_iff] at this
  simp [wrDecode, this.1, this.2, h]

/-- The write decode of the bank-select registers (R145). -/
theorem wrDecode_banksel {b : Block} {c : BusConfig} {a : Addr} (hc : b.cfg = some c) (hn : NoRamWrite c a)
    (hcap : b.capable = true) (h1 : 0xA130F3 ≤ a.toNat) (h2 : a.toNat ≤ 0xA131FF) : wrDecode b a = .banksel (bankSlot a) := by
  have := (noRamWrite_iff hc).1 hn
  simp only [View.ramClaims, Bool.or_eq_false_iff] at this
  have h3 : a.toNat ≠ 0xA130F1 := by omega
  simp [wrDecode, this.1, this.2, hcap, h1, h2, h3]

/-- Everything the write decode can answer, with the condition of each answer (R85). -/
theorem wrDecode_cases (b : Block) (a : Addr) :
    (∃ c, b.cfg = some c ∧ c.ramStart.toNat ≤ a.toNat ∧ a.toNat + 2 ≤ c.ramEnd.toNat ∧
      wrDecode b a = .ram (a.toNat - c.ramStart.toNat)) ∨
    (∃ c, b.cfg = some c ∧ ¬ (c.ramStart.toNat ≤ a.toNat ∧ a.toNat + 2 ≤ c.ramEnd.toNat) ∧ c.sramPresent = true ∧
      c.sramStart.toNat ≤ a.toNat ∧ a.toNat + 2 ≤ c.sramEnd.toNat ∧ wrDecode b a = .sram (a.toNat - c.sramStart.toNat)) ∨
    (b.view.ramClaims a = false ∧ a.toNat = 0xA130F1 ∧ wrDecode b a = .arm) ∨
    (b.view.ramClaims a = false ∧ b.capable = true ∧ 0xA130F3 ≤ a.toNat ∧ a.toNat ≤ 0xA131FF ∧
      wrDecode b a = .banksel (bankSlot a)) ∨
    (b.view.ramClaims a = false ∧ a.toNat ≠ 0xA130F1 ∧ ¬ (b.capable = true ∧ 0xA130F3 ≤ a.toNat ∧ a.toNat ≤ 0xA131FF) ∧
      wrDecode b a = .discard) := by
  by_cases h1 : b.view.inRamWrite a = true
  · left
    rcases hc : b.cfg with _ | c
    · simp [View.inRamWrite, hc] at h1
    · obtain ⟨h2, h3⟩ := (inRamWrite_iff hc).1 h1
      exact ⟨c, rfl, h2, h3, wrDecode_ram hc h2 h3⟩
  by_cases h2 : b.view.inSramWrite a = true
  · right; left
    rcases hc : b.cfg with _ | c
    · simp [View.inSramWrite, hc] at h2
    · obtain ⟨h4, h5, h6⟩ := (inSramWrite_iff hc).1 h2
      have h0 := mt (inRamWrite_iff hc).2 h1
      exact ⟨c, rfl, h0, h4, h5, h6, wrDecode_sram hc h0 h4 h5 h6⟩
  have hc : b.view.ramClaims a = false := by simp [View.ramClaims, h1, h2]
  simp only [wrDecode, h1, h2]
  by_cases h3 : a.toNat = 0xA130F1
  · right; right; left
    simp [hc, h3]
  by_cases h4 : b.capable = true ∧ 0xA130F3 ≤ a.toNat ∧ a.toNat ≤ 0xA131FF
  · right; right; right; left
    simp [hc, h3, h4]
  · right; right; right; right
    have h5 : (inRange 0x00A130F3 0x00A131FF a && b.capable) = false := by
      rw [← Bool.not_eq_true]
      simp only [inRange, Bool.and_eq_true, decide_eq_true_eq]
      exact fun h => h4 ⟨h.2, h.1⟩
    refine ⟨hc, h3, h4, ?_⟩
    rw [if_neg (by simp), if_neg (by simp), if_neg h3, if_neg (by rw [h5]; simp)]

/-- The slot number by remainder and quotient (R88). -/
theorem bankSlot_eq (a : Addr) : bankSlot a = (a.toNat % 16 / 2 : Nat) - 1 := by
  unfold bankSlot
  rw [show (0xF : Nat) = 2 ^ 4 - 1 from rfl, Nat.and_two_pow_sub_one_eq_mod, Nat.shiftRight_eq_div_pow]

/-- Everything a `poke` that answers a next state has done (R140 to R149). -/
theorem poke_next {s t : State} {a : Addr} {v : Byte} (h : poke .armOnly a v s = .next t) :
    t.issued = s.issued ∧ t.operand = s.operand ∧
    ((s.block.loaded = false ∧ t.block = s.block ∧ t.response = some (Response.ofStatus .notLoaded)) ∨
      (s.block.loaded = true ∧ t.response = some (Response.ofStatus .ok) ∧
        ((∃ j, wrDecode s.block a = .ram j ∧ j < s.block.ram.len ∧ t.block = s.block.writeRam j v) ∨
          (∃ j, wrDecode s.block a = .sram j ∧ j < s.block.sram.len ∧ t.block = s.block.writeSram j v) ∨
          (wrDecode s.block a = .arm ∧ t.block = s.block.arm) ∨
          (∃ k : Int, wrDecode s.block a = .banksel k ∧ 0 ≤ k ∧ k ≤ 6 ∧ t.block = s.block.arm.setBank k.toNat v) ∨
          (∃ k : Int, wrDecode s.block a = .banksel k ∧ ¬ (0 ≤ k ∧ k ≤ 6) ∧ t.block = s.block.arm) ∨
          (wrDecode s.block a = .discard ∧ t.block = s.block)))) := by
  unfold poke at h
  split at h
  · rename_i hl
    injection h with h; subst h
    exact ⟨rfl, rfl, .inl ⟨by simpa using hl, rfl, rfl⟩⟩
  · rename_i hl
    have hl : s.block.loaded = true := by simpa using hl
    split at h
    · rename_i j hj
      unfold storeRam at h
      split at h
      · rename_i hlt
        injection h with h; subst h
        exact ⟨rfl, rfl, .inr ⟨hl, rfl, .inl ⟨j, hj, hlt, rfl⟩⟩⟩
      · simp at h
    · rename_i j hj
      unfold storeSram at h
      split at h
      · rename_i hlt
        injection h with h; subst h
        exact ⟨rfl, rfl, .inr ⟨hl, rfl, .inr (.inl ⟨j, hj, hlt, rfl⟩)⟩⟩
      · simp at h
    · rename_i hj
      injection h with h; subst h
      exact ⟨rfl, rfl, .inr ⟨hl, rfl, .inr (.inr (.inl ⟨hj, rfl⟩))⟩⟩
    · rename_i k hj
      unfold bankSelect at h
      split at h
      · rename_i hk
        injection h with h; subst h
        exact ⟨rfl, rfl, .inr ⟨hl, rfl, .inr (.inr (.inr (.inl ⟨k, hj, hk.1, hk.2, rfl⟩)))⟩⟩
      · rename_i hk
        injection h with h; subst h
        exact ⟨rfl, rfl, .inr ⟨hl, rfl, .inr (.inr (.inr (.inr (.inl ⟨k, hj, hk, rfl⟩))))⟩⟩
    · rename_i hj
      injection h with h; subst h
      exact ⟨rfl, rfl, .inr ⟨hl, rfl, .inr (.inr (.inr (.inr (.inr ⟨hj, rfl⟩))))⟩⟩

/-! ### The lifecycle -/

/-- The reset bank vector holds 0 in every register. -/
theorem bank_zeros (k : Fin 7) : (#v[0#8, 0#8, 0#8, 0#8, 0#8, 0#8, 0#8])[k] = 0#8 := by fin_cases k <;> rfl

/-- When all the tests of `load` pass (R172). -/
theorem loadStatus_eq_ok_iff (r : LoadRequest) :
    loadStatus r = .ok ↔
      r.romStart.toNat ≤ r.romEnd.toNat ∧ r.romEnd.toNat - r.romStart.toNat ≤ r.rom.len ∧
      r.ramStart.toNat ≤ r.ramEnd.toNat ∧ r.ramEnd.toNat - r.ramStart.toNat ≤ 0x100000 ∧
      (r.present = true → r.sramStart.toNat ≤ r.sramEnd.toNat ∧ r.sramEnd.toNat - r.sramStart.toNat ≤ 0x100000) := by
  unfold loadStatus LoadRequest.sramSize LoadRequest.ramSize
  rcases hp : r.present <;> simp <;> split_ifs <;> simp <;> omega

/-- Everything the tests and the commit of a `load` can do (R172). -/
theorem loadTested_next {r : LoadRequest} {w : Bool} {s t : State} (h : loadTested r w s = .next t) :
    t.issued = s.issued ∧ t.operand = s.operand ∧
    t.response = some { status := some (loadStatus r), value := none, warn := w } ∧
    ((loadStatus r = .ok ∧ t.block = s.block.commit r) ∨ (loadStatus r ≠ .ok ∧ t.block = s.block)) := by
  unfold loadTested at h
  simp only at h
  split at h
  · rename_i hs; injection h with h; subst h; exact ⟨rfl, rfl, rfl, .inl ⟨hs, rfl⟩⟩
  · rename_i hs; injection h with h; subst h; exact ⟨rfl, rfl, rfl, .inr ⟨hs, rfl⟩⟩

/-- The tests and the commit always answer. -/
theorem loadTested_answers (r : LoadRequest) (w : Bool) (s : State) : ∃ t, loadTested r w s = .next t := by
  unfold loadTested
  simp only
  split <;> exact ⟨_, rfl⟩

/-- Everything a `load` can do, at either level: it fails and leaves the reset block, or commits a request whose tests passed (R172,
R179, R246). -/
theorem execLoad_next {s t : State} (h : exec .load s = .next t) :
    t.issued = s.issued ∧ t.operand = s.operand ∧
    ∃ st w, t.response = some { status := some st, value := none, warn := w } ∧
      ((st ≠ .ok ∧ t.block = Block.reset) ∨
        (st = .ok ∧ ∃ r, loadStatus r = .ok ∧ t.block = Block.reset.commit r ∧
          (s.operand = .request r ∨
            ∃ f c h, s.operand = .file f ∧ containerOf f.path = some c ∧ decodeHeader f.bytes = some h ∧
              r = requestOf h (assemble c f h)))) := by
  simp only [exec, execLoad] at h
  split at h
  · rename_i r ho
    obtain ⟨e1, e2, e3, e4⟩ := loadTested_next h
    refine ⟨e1, e2, _, _, e3, ?_⟩
    rcases e4 with ⟨h1, h2⟩ | ⟨h1, h2⟩
    · exact .inr ⟨h1, r, h1, h2, .inl ho⟩
    · exact .inl ⟨h1, h2⟩
  · rename_i f ho
    unfold loadPath at h
    simp only at h
    split at h
    · injection h with h; subst h; exact ⟨rfl, rfl, _, _, rfl, .inl ⟨by simp, rfl⟩⟩
    · rename_i c hc
      split at h
      · injection h with h; subst h; exact ⟨rfl, rfl, _, _, rfl, .inl ⟨by simp, rfl⟩⟩
      · rename_i hd hdr
        split at h
        · injection h with h; subst h; exact ⟨rfl, rfl, _, _, rfl, .inl ⟨by simp, rfl⟩⟩
        · obtain ⟨e1, e2, e3, e4⟩ := loadTested_next h
          refine ⟨e1, e2, _, _, e3, ?_⟩
          rcases e4 with ⟨h1, h2⟩ | ⟨h1, h2⟩
          · exact .inr ⟨h1, _, h1, h2, .inr ⟨f, c, hd, ho, hc, hdr, rfl⟩⟩
          · exact .inl ⟨h1, h2⟩

/-! ### The step -/

/-- A step with an operation issued runs it. -/
theorem step_cons {s : State} {t : Transaction} {rest : List Transaction} (h : s.issued = t :: rest) :
    step s = exec (decodeIn s.view t.word) (s.accept t rest) := by
  unfold step
  rw [h]

/-- One more step of a run. -/
theorem core_run_succ (n : Nat) (s : State) :
    Sys2Proof.core.run (n + 1) s
      = match step s with
        | .next s' => Sys2Proof.core.run n s'
        | .fault r => .fault r
        | .refused r => .refused r := by
  rcases h : step s <;> simp [Host.Core.run, Sys2Proof.core, h]

end Sys2Proof.Machine
end

