-- ==== Sys2Proof/Laws/PerInstr.lean ====
section
/-! SUPPORT. The per-instruction family `MatchesRow`: a term is well formed exactly when the word the encoder gives it meets the `match`
and `mask` of its own row of the opcode table. -/

namespace Sys2Proof.Laws.MatchesRow

/-- The term is a row of the table iff `T & mask = match` for its word. -/
def Statement (i : Instr) : Prop :=
  i.wellFormed = true ↔ encode i &&& (rowPattern i).mask = (rowPattern i).matchBits

/-- `T & mask = match` as a fact about the word as a number, for a mask of all bits from `k` up. -/
theorem packT_masked_iff (op : BitVec 2) (a : Addr) (d : Byte) {mask want : TWord} (k n : Nat)
    (hmask : mask = BitVec.allOnes 42 <<< k) (hwant : want.toNat = n * 2 ^ k) :
    packT op a d &&& mask = want ↔ (op.toNat * 2 ^ 40 + a.toNat * 2 ^ 8 + d.toNat) / 2 ^ k = n := by
  rw [← BitVec.toNat_inj, and_highMask_toNat _ _ k hmask, packT_toNat, hwant, Nat.mul_left_inj (by simp)]

/-- A row whose only fixed bits are the operation admits every address and data byte. -/
theorem op_row_iff (op : BitVec 2) (a : Addr) (d : Byte) :
    true = true ↔ (op.toNat * 2 ^ 40 + a.toNat * 2 ^ 8 + d.toNat) / 2 ^ 40 = op.toNat := by
  have := a.isLt
  have := d.isLt
  simp only [true_iff]
  omega

/-- A `peek` row with fixed address bits from bit 19 up admits the addresses of that 512 KiB unit. -/
theorem window_row_iff (a : Addr) (n : Nat) :
    (n * 0x80000 ≤ a.toNat ∧ a.toNat < n * 0x80000 + 0x80000) ↔
      ((0#2).toNat * 2 ^ 40 + a.toNat * 2 ^ 8 + (0#8).toNat) / 2 ^ 27 = n := by
  simp only [BitVec.toNat_ofNat]
  omega

/-- A `poke` row with fixed address bits from bit `k` up admits the addresses of that aligned range. -/
theorem register_row_iff (a : Addr) (v : Byte) (k n : Nat) (lo hi : Nat) (hk : k = 0 ∨ k = 2 ∨ k = 3 ∨ k = 8)
    (hlo : 2 ^ 32 + lo = n * 2 ^ k) (hhi : hi + 1 = lo + 2 ^ k) :
    (lo ≤ a.toNat ∧ a.toNat ≤ hi) ↔ ((1#2).toNat * 2 ^ 40 + a.toNat * 2 ^ 8 + v.toNat) / 2 ^ (8 + k) = n := by
  have := v.isLt
  simp only [BitVec.toNat_ofNat]
  rcases hk with rfl | rfl | rfl | rfl <;> omega

/-- Row of `rdNotLoaded`. -/
theorem rdNotLoaded (a : Addr) : Statement (.rdNotLoaded a) := by
  exact (op_row_iff 0 a 0).trans (packT_masked_iff 0 a 0 40 0 rfl (by simp [rowPattern])).symm

/-- Row of `rdFlat`. -/
theorem rdFlat (a : Addr) : Statement (.rdFlat a) := by
  exact (op_row_iff 0 a 0).trans (packT_masked_iff 0 a 0 40 0 rfl (by simp [rowPattern])).symm

/-- Row of `rdFixed`. -/
theorem rdFixed (a : Addr) : Statement (.rdFixed a) := by
  refine Iff.trans ?_ ((window_row_iff a 0).trans (packT_masked_iff 0 a 0 27 0 rfl (by simp [rowPattern])).symm)
  simp [Instr.wellFormed]
  omega

/-- Row of `rdWin0`. -/
theorem rdWin0 (a : Addr) : Statement (.rdWin0 a) := by
  refine Iff.trans ?_ ((window_row_iff a 1).trans (packT_masked_iff 0 a 0 27 1 rfl rfl).symm)
  simp [Instr.wellFormed]

/-- Row of `rdWin1`. -/
theorem rdWin1 (a : Addr) : Statement (.rdWin1 a) := by
  refine Iff.trans ?_ ((window_row_iff a 2).trans (packT_masked_iff 0 a 0 27 2 rfl rfl).symm)
  simp [Instr.wellFormed]

/-- Row of `rdWin2`. -/
theorem rdWin2 (a : Addr) : Statement (.rdWin2 a) := by
  refine Iff.trans ?_ ((window_row_iff a 3).trans (packT_masked_iff 0 a 0 27 3 rfl rfl).symm)
  simp [Instr.wellFormed]

/-- Row of `rdWin3`. -/
theorem rdWin3 (a : Addr) : Statement (.rdWin3 a) := by
  refine Iff.trans ?_ ((window_row_iff a 4).trans (packT_masked_iff 0 a 0 27 4 rfl rfl).symm)
  simp [Instr.wellFormed]

/-- Row of `rdWin4`. -/
theorem rdWin4 (a : Addr) : Statement (.rdWin4 a) := by
  refine Iff.trans ?_ ((window_row_iff a 5).trans (packT_masked_iff 0 a 0 27 5 rfl rfl).symm)
  simp [Instr.wellFormed]

/-- Row of `rdWin5`. -/
theorem rdWin5 (a : Addr) : Statement (.rdWin5 a) := by
  refine Iff.trans ?_ ((window_row_iff a 6).trans (packT_masked_iff 0 a 0 27 6 rfl rfl).symm)
  simp [Instr.wellFormed]

/-- Row of `rdWin6`. -/
theorem rdWin6 (a : Addr) : Statement (.rdWin6 a) := by
  refine Iff.trans ?_ ((window_row_iff a 7).trans (packT_masked_iff 0 a 0 27 7 rfl rfl).symm)
  simp [Instr.wellFormed]

/-- Row of `rdRam`. -/
theorem rdRam (a : Addr) : Statement (.rdRam a) := by
  exact (op_row_iff 0 a 0).trans (packT_masked_iff 0 a 0 40 0 rfl (by simp [rowPattern])).symm

/-- Row of `rdSram`. -/
theorem rdSram (a : Addr) : Statement (.rdSram a) := by
  exact (op_row_iff 0 a 0).trans (packT_masked_iff 0 a 0 40 0 rfl (by simp [rowPattern])).symm

/-- Row of `rdUnmapped`. -/
theorem rdUnmapped (a : Addr) : Statement (.rdUnmapped a) := by
  exact (op_row_iff 0 a 0).trans (packT_masked_iff 0 a 0 40 0 rfl (by simp [rowPattern])).symm

/-- Row of `wrNotLoaded`. -/
theorem wrNotLoaded (a : Addr) (v : Byte) : Statement (.wrNotLoaded a v) := by
  exact (op_row_iff 1 a v).trans (packT_masked_iff 1 a v 40 1 rfl rfl).symm

/-- Row of `wrRam`. -/
theorem wrRam (a : Addr) (v : Byte) : Statement (.wrRam a v) := by
  exact (op_row_iff 1 a v).trans (packT_masked_iff 1 a v 40 1 rfl rfl).symm

/-- Row of `wrSram`. -/
theorem wrSram (a : Addr) (v : Byte) : Statement (.wrSram a v) := by
  exact (op_row_iff 1 a v).trans (packT_masked_iff 1 a v 40 1 rfl rfl).symm

/-- Row of `wrArm`. -/
theorem wrArm (a : Addr) (v : Byte) : Statement (.wrArm a v) := by
  refine Iff.trans ?_ ((register_row_iff a v 0 0x100a130f1 0xa130f1 0xa130f1 (by decide) (by decide) (by decide)).trans
    (packT_masked_iff 1 a v 8 0x100a130f1 rfl rfl).symm)
  simp [Instr.wellFormed]

/-- Row of `wrBankselF3`. -/
theorem wrBankselF3 (a : Addr) (v : Byte) : Statement (.wrBankselF3 a v) := by
  refine Iff.trans ?_ ((register_row_iff a v 0 0x100a130f3 0xa130f3 0xa130f3 (by decide) (by decide) (by decide)).trans
    (packT_masked_iff 1 a v 8 0x100a130f3 rfl rfl).symm)
  simp [Instr.wellFormed]

/-- Row of `wrBankselF4`. -/
theorem wrBankselF4 (a : Addr) (v : Byte) : Statement (.wrBankselF4 a v) := by
  refine Iff.trans ?_ ((register_row_iff a v 2 0x40284c3d 0xa130f4 0xa130f7 (by decide) (by decide) (by decide)).trans
    (packT_masked_iff 1 a v 10 0x40284c3d rfl rfl).symm)
  simp [Instr.wellFormed]

/-- Row of `wrBankselF8`. -/
theorem wrBankselF8 (a : Addr) (v : Byte) : Statement (.wrBankselF8 a v) := by
  refine Iff.trans ?_ ((register_row_iff a v 3 0x2014261f 0xa130f8 0xa130ff (by decide) (by decide) (by decide)).trans
    (packT_masked_iff 1 a v 11 0x2014261f rfl rfl).symm)
  simp [Instr.wellFormed]

/-- Row of `wrBanksel131`. -/
theorem wrBanksel131 (a : Addr) (v : Byte) : Statement (.wrBanksel131 a v) := by
  refine Iff.trans ?_ ((register_row_iff a v 8 0x100a131 0xa13100 0xa131ff (by decide) (by decide) (by decide)).trans
    (packT_masked_iff 1 a v 16 0x100a131 rfl rfl).symm)
  simp [Instr.wellFormed]

/-- Row of `wrDiscard`. -/
theorem wrDiscard (a : Addr) (v : Byte) : Statement (.wrDiscard a v) := by
  exact (op_row_iff 1 a v).trans (packT_masked_iff 1 a v 40 1 rfl rfl).symm

/-- Row of `load`. -/
theorem load : Statement .load := by unfold Statement; decide

/-- Row of `unload`. -/
theorem unload : Statement .unload := by unfold Statement; decide

end Sys2Proof.Laws.MatchesRow
end

