-- ==== Sys2Proof/Laws/Rows.lean ====
section
/-! SUPPORT. Which row the decoder selects: the priority order read as conditions on the address as a number, the rows a decode can
give, and what a byte sequence decodes to. -/

namespace Sys2Proof

/-- The decoder on a packed `peek` word. -/
theorem decodeIn_packT_read (v : View) (a : Addr) (d : Byte) : decodeIn v (packT 0 a d) = readRow v a := by simp [decodeIn]

/-- The decoder on a packed `poke` word. -/
theorem decodeIn_packT_write (v : View) (a : Addr) (d : Byte) : decodeIn v (packT 1 a d) = writeRow v a d := by
  simp [decodeIn]

/-- The operation field has four values, all of them operations (R81). -/
theorem opT_cases (w : TWord) : opT w = 0#2 ∨ opT w = 1#2 ∨ opT w = 2#2 ∨ opT w = 3#2 := by
  generalize opT w = o
  revert o
  decide

/-- The window field selects the window whose range holds the address (R82). -/
theorem windowRow_of_inWindow {a : Addr} {n : Fin 7} (h : inWindow n a = true) :
    windowRow (addrWsel a) a = Instr.rdWin n a := by
  simp only [inWindow, Bool.and_eq_true, decide_eq_true_eq, Config.winBase, Config.winSize] at h
  have : (addrWsel a).toNat = n.val + 1 := by rw [addrWsel_toNat]; omega
  unfold windowRow
  rw [this]
  fin_cases n <;> rfl

/-- A banked read of the fixed window (R84 order 2). -/
theorem readRow_fixed {v : View} {a : Addr} (hl : v.loaded = true) (hb : v.banked = true) (h : a.toNat ≤ 0x7FFFF) :
    readRow v a = .rdFixed a := by
  have h0 : addrHi a = 0#10 := by rw [addrHi_eq_zero_iff]; omega
  have h1 : (addrWsel a).toNat = 0 := by rw [addrWsel_toNat]; omega
  simp [readRow, hl, hb, h0, windowRow, h1]

/-- A banked read of window `n` (R84 order 3). -/
theorem readRow_window {v : View} {a : Addr} (n : Fin 7) (hl : v.loaded = true) (hb : v.banked = true)
    (h : inWindow n a = true) : readRow v a = Instr.rdWin n a := by
  have h' := h
  simp only [inWindow, Bool.and_eq_true, decide_eq_true_eq, Config.winBase, Config.winSize] at h'
  have h0 : addrHi a = 0#10 := by rw [addrHi_eq_zero_iff]; omega
  simp only [readRow, hl, hb, h0]
  simp [windowRow_of_inWindow h]

/-- A read that no ROM row claims (R84 orders 4 to 6). -/
theorem readRow_noRom {v : View} {a : Addr} (hl : v.loaded = true) (h : v.romClaims a = false) :
    readRow v a = if v.inRamRead a then .rdRam a else if v.inSramRead a then .rdSram a else .rdUnmapped a := by
  simp only [View.romClaims] at h
  rcases hb : v.banked
  · simp [hb] at h
    simp [readRow, hl, hb, h]
  · simp [hb] at h
    have : ¬ addrHi a = 0#10 := by rw [addrHi_eq_zero_iff]; omega
    simp [readRow, hl, hb, this]

/-- A write that neither RAM row claims (R85 orders 3 to 5). -/
theorem writeRow_noRam {v : View} {a : Addr} {d : Byte} (hl : v.loaded = true) (h : v.ramClaims a = false) :
    writeRow v a d
      = if a.toNat = 0xA130F1 then .wrArm a d
        else if v.capable = true ∧ a.toNat = 0xA130F3 then .wrBankselF3 a d
        else if v.capable = true ∧ 0xA130F4 ≤ a.toNat ∧ a.toNat ≤ 0xA130F7 then .wrBankselF4 a d
        else if v.capable = true ∧ 0xA130F8 ≤ a.toNat ∧ a.toNat ≤ 0xA130FF then .wrBankselF8 a d
        else if v.capable = true ∧ 0xA13100 ≤ a.toNat ∧ a.toNat ≤ 0xA131FF then .wrBanksel131 a d
        else .wrDiscard a d := by
  simp only [View.ramClaims, Bool.or_eq_false_iff] at h
  simp only [writeRow, hl, h.1, h.2, beq_iff_eq, eq_regArm_iff, Bool.and_eq_true, bankselF3Pattern_iff, bankselF4Pattern_iff,
    bankselF8Pattern_iff, banksel131Pattern_iff]
  rfl

/-- What the bytes of a number decode to: the word they lay out, where their 48 bits are a transaction word (log 14). -/
theorem decodeBytes_bytesOf (v : View) (n : Nat) (rest : List Byte) :
    decodeBytes v (bytesOf 6 n ++ rest)
      = if n / 2 ^ 40 % 256 < 4 then .ok (decodeIn v (BitVec.ofNat 42 (n % 2 ^ 48)), rest) else .error .bitsAbove41 := by
  simp only [bytesOf, List.cons_append, List.nil_append, decodeBytes, BitVec.toNat_ofNat]
  rw [show n / 256 / 256 / 256 / 256 / 256 = n / 2 ^ 40 by omega, show 2 ^ 8 = 256 from rfl]
  split
  · congr 4
    omega
  · rfl

namespace Machine

/-- A decoded `peek` is one of the thirteen rows of its address. -/
theorem readRow_mem (v : View) (a : Addr) : readRow v a ∈ readRows a := by
  simp only [readRow, windowRow]
  split
  · simp [readRows]
  split
  · simp [readRows]
  split
  · split <;> simp [readRows]
  split
  · simp [readRows]
  split <;> simp [readRows]

/-- A decoded `poke` is one of the nine rows of its address and data. -/
theorem writeRow_mem (v : View) (a : Addr) (d : Byte) : writeRow v a d ∈ writeRows a d := by
  simp only [writeRow]
  split
  · simp [writeRows]
  split
  · simp [writeRows]
  split
  · simp [writeRows]
  split
  · simp [writeRows]
  split
  · simp [writeRows]
  split
  · simp [writeRows]
  split
  · simp [writeRows]
  split <;> simp [writeRows]

/-- The four bank-select patterns are rows of a `poke`. -/
theorem bankselRows_subset {a : Addr} {v : Byte} {i : Instr} (h : i ∈ bankselRows a v) : i ∈ writeRows a v := by
  simp only [bankselRows, List.mem_cons, List.not_mem_nil, or_false] at h
  rcases h with rfl | rfl | rfl | rfl <;> simp [writeRows]

end Machine

end Sys2Proof
end

