-- ==== Sys2Proof/Tests/Slice0.lean ====
section
/-! SUPPORT. The model's own tests. Expected values stand in the tables of `spec/95_test_vectors.md` (named at each test) or follow by
hand from the rule named. ROM bytes are those of the spec's pattern `P(i)`, only at the indices the tests read. At the end, for
every statement with hypotheses, a concrete input that meets them. -/

namespace Sys2Proof.Tests

open Sys2Proof.Machine

/-! ### Small states -/

/-- Seven bank registers, all 0. -/
def bank0 : Vector Byte 7 := #v[0#8, 0#8, 0#8, 0#8, 0#8, 0#8, 0#8]

/-- `CFG_B` of the spec's tables. -/
def cfgB : BusConfig :=
  { romStart := 0x000000, romEnd := 0x4FFFFF, ramStart := 0xFF0000, ramEnd := 0xFF0FFF, sramPresent := true,
    sramStart := 0x600001, sramEnd := 0x60FFFF }

/-- A 5 MiB image with the bytes `P(i)` that the tests read. -/
def romB : Memory :=
  { len := 0x500000
    cells := [(0x000100, 0x01#8), (0x080500, 0x04#8), (0x100500, 0x07#8), (0x180000, 0x03#8), (0x200000, 0x04#8),
      (0x280000, 0x05#8), (0x300000, 0x06#8), (0x3FFFFF, 0x07#8), (0x480000, 0x09#8), (0x480010, 0x19#8), (0x4FFFFF, 0x09#8)] }

/-- A block loaded with `CFG_B`, with one byte stored in each RAM (V-WR/B lines 4 and 14). -/
def blockB (armed : Bool) (bank : Vector Byte 7) : Block :=
  { loaded := true, cfg := some cfgB, rom := romB, ram := { len := 0xFFF, cells := [(0xFFD, 0x22#8)] },
    sram := { len := 0xFFFE, cells := [(0xFFFC, 0x66#8)] }, capable := true, armed := armed, bank := bank }

/-- A block loaded with `CFG_A`: 4 KiB, not capable, no save RAM. -/
def blockA (armed : Bool) : Block :=
  { loaded := true,
    cfg := some { romStart := 0, romEnd := 0xFFF, ramStart := 0xFF0000, ramEnd := 0xFFFFFF, sramPresent := false,
                  sramStart := 0, sramEnd := 0 },
    rom := { len := 0x1000, cells := [(0x1FF, 0xFE#8), (0xFFF, 0xF0#8)] }, ram := { len := 0xFFFF, cells := [] },
    sram := Memory.empty, capable := false, armed := armed, bank := bank0 }

/-- A block loaded with `CFG_C`: RAM under the ROM range, save RAM over the enable register, `romStart` not 0. -/
def blockC (armed : Bool) : Block :=
  { loaded := true,
    cfg := some { romStart := 0x200, romEnd := 0x480200, ramStart := 0x200000, ramEnd := 0x200FFF, sramPresent := true,
                  sramStart := 0xA13000, sramEnd := 0xA130F4 },
    rom := { len := 0x480000, cells := [(0x200010, 0x14#8), (0x47FFFF, 0x08#8)] }, ram := { len := 0xFFF, cells := [] },
    sram := { len := 0xF4, cells := [] }, capable := true, armed := armed, bank := bank0 }

/-- The machine with that block, nothing issued. -/
def withBlock (b : Block) : State := { State.reset with block := b }

/-- The machine with one operation issued. -/
def issuing (b : Block) (w : TWord) (o : LoadOperand) : State :=
  { withBlock b with issued := [{ word := w, operand := o }] }

/-- What the operation returned. -/
def reply : Out → Option Response
  | .next t => t.response
  | .fault _ => none
  | .refused _ => none

/-- The block after the operation. -/
def after : Out → Option Block
  | .next t => some t.block
  | .fault _ => none
  | .refused _ => none

/-- `OK` with a byte. -/
def okByte (v : Byte) : Option Response := some { status := some .ok, value := some v, warn := false }

/-- A bare status. -/
def status (st : Status) : Option Response := some { status := some st, value := none, warn := false }

/-- A load request of the spec's tables: an image of `n` zero bytes, the bounds, the flag bytes. -/
def request (n : Nat) (rs re as ae : Addr) (f0 f1 : Byte) (ss se : Addr) : LoadRequest :=
  { romStart := rs, romEnd := re, ramStart := as, ramEnd := ae, sramFlag0 := f0, sramFlag1 := f1, sramStart := ss, sramEnd := se,
    rom := { len := n, cells := [] } }

/-- The load request of `CFG_B`. -/
def reqB : LoadRequest := { request 0 0 0x4FFFFF 0xFF0000 0xFF0FFF 0x52 0x41 0x600001 0x60FFFF with rom := romB }

/-- The load request of `CFG_X` (the source's E3). -/
def reqX : LoadRequest := request 0x1000 0 0xFFF 0xE00000 0xF10000 0x20 0x20 0 0

/-- The file of vector F1: header H1 and the body 01 02 03 04; `lo` is the low byte of the header's checksum. -/
def fileH1 (lo : Byte) : Memory :=
  { len := 514
    cells := [(0x18F, lo), (0x1A6, 0x02#8), (0x1A9, 0xFF#8), (0x1AD, 0xFF#8), (0x1AE, 0xFF#8), (0x1AF, 0xFF#8), (0x1B0, 0x52#8),
      (0x1B1, 0x41#8), (0x1B2, 0x20#8), (0x1B4, 0x20#8), (0x1B6, 0x01#8), (0x1B8, 0x20#8), (0x1B9, 0x3F#8), (0x1BA, 0xFF#8),
      (0x1FE, 0x01#8), (0x1FF, 0x02#8), (0x200, 0x03#8), (0x201, 0x04#8)] }

/-- That file under a path. -/
def loadFile (path : String) (m : Memory) : LoadFile := { path := path.toList, bytes := m, reread := m }

/-- The machine with a load operand at the port. -/
def withOperand (b : Block) (o : LoadOperand) : State := { withBlock b with operand := o }

/-! ### Which terms are rows: one ill-formed term for each check -/

theorem test_wf_rdFixed : (Instr.rdFixed 0x080000).wellFormed = false := by decide
theorem test_wf_rdWin0 : (Instr.rdWin0 0x07FFFF).wellFormed = false ∧ (Instr.rdWin0 0x100000).wellFormed = false := by decide
theorem test_wf_rdWin1 : (Instr.rdWin1 0x0FFFFF).wellFormed = false ∧ (Instr.rdWin1 0x180000).wellFormed = false := by decide
theorem test_wf_rdWin2 : (Instr.rdWin2 0x17FFFF).wellFormed = false ∧ (Instr.rdWin2 0x200000).wellFormed = false := by decide
theorem test_wf_rdWin3 : (Instr.rdWin3 0x1FFFFF).wellFormed = false ∧ (Instr.rdWin3 0x280000).wellFormed = false := by decide
theorem test_wf_rdWin4 : (Instr.rdWin4 0x27FFFF).wellFormed = false ∧ (Instr.rdWin4 0x300000).wellFormed = false := by decide
theorem test_wf_rdWin5 : (Instr.rdWin5 0x2FFFFF).wellFormed = false ∧ (Instr.rdWin5 0x380000).wellFormed = false := by decide
theorem test_wf_rdWin6 : (Instr.rdWin6 0x37FFFF).wellFormed = false ∧ (Instr.rdWin6 0x400000).wellFormed = false := by decide
theorem test_wf_wrArm : (Instr.wrArm 0xA130F0 0).wellFormed = false ∧ (Instr.wrArm 0xA130F2 0).wellFormed = false := by decide
theorem test_wf_wrBankselF3 : (Instr.wrBankselF3 0xA130F2 0).wellFormed = false ∧ (Instr.wrBankselF3 0xA130F4 0).wellFormed = false := by
  decide
theorem test_wf_wrBankselF4 : (Instr.wrBankselF4 0xA130F3 0).wellFormed = false ∧ (Instr.wrBankselF4 0xA130F8 0).wellFormed = false := by
  decide
theorem test_wf_wrBankselF8 : (Instr.wrBankselF8 0xA130F7 0).wellFormed = false ∧ (Instr.wrBankselF8 0xA13100 0).wellFormed = false := by
  decide
theorem test_wf_wrBanksel131 :
    (Instr.wrBanksel131 0xA130FF 0).wellFormed = false ∧ (Instr.wrBanksel131 0xA13200 0).wellFormed = false := by decide

/-! ### Decoding: for every constructor a word written out from R81 and the opcode table, operation, address and data in turn -/

theorem test_decode_rdNotLoaded :
    decodeIn Block.reset.view (0b00#2 ++ 0b00000000000000000000000100000000#32 ++ 0b00000000#8) = .rdNotLoaded 0x00000100 := by decide
theorem test_decode_rdFlat :
    decodeIn (blockB false bank0).view (0b00#2 ++ 0b00000000010010000000000000010000#32 ++ 0b00000000#8) = .rdFlat 0x00480010 := by
  decide
theorem test_decode_rdFixed : decodeTableWord 48 0b000000000000000000000000000100000000_00000000 = some (.rdFixed 0x00000100) := by decide
theorem test_decode_rdWin0 : decodeTableWord 48 0x00008050000 = some (.rdWin0 0x00080500) := by decide
theorem test_decode_rdWin1 : decodeTableWord 48 0x00010050000 = some (.rdWin1 0x00100500) := by decide
theorem test_decode_rdWin2 : decodeTableWord 48 0x00018000000 = some (.rdWin2 0x00180000) := by decide
theorem test_decode_rdWin3 : decodeTableWord 48 0x00020000000 = some (.rdWin3 0x00200000) := by decide
theorem test_decode_rdWin4 : decodeTableWord 48 0x00028000000 = some (.rdWin4 0x00280000) := by decide
theorem test_decode_rdWin5 : decodeTableWord 48 0x00030000000 = some (.rdWin5 0x00300000) := by decide
theorem test_decode_rdWin6 : decodeTableWord 48 0x0003FFFFF00 = some (.rdWin6 0x003FFFFF) := by decide
theorem test_decode_rdRam : decodeIn (blockB true bank0).view 0x000FF001000 = .rdRam 0x00FF0010 := by decide
theorem test_decode_rdSram : decodeIn (blockB true bank0).view 0x00060000100 = .rdSram 0x00600001 := by decide
theorem test_decode_rdUnmapped : decodeIn (blockB true bank0).view 0x00048001000 = .rdUnmapped 0x00480010 := by decide
theorem test_decode_wrNotLoaded : decodeIn Block.reset.view 0x100A130F100 = .wrNotLoaded 0x00A130F1 0x00 := by decide
theorem test_decode_wrRam :
    decodeIn (blockB false bank0).view (0b01#2 ++ 0b00000000111111110000111111111101#32 ++ 0b00100010#8) = .wrRam 0x00FF0FFD 0x22 := by
  decide
theorem test_decode_wrSram : decodeIn (blockC false).view 0x100A130F101 = .wrSram 0x00A130F1 0x01 := by decide
theorem test_decode_wrArm : decodeTableWord 48 0x100A130F101 = some (.wrArm 0x00A130F1 0x01) := by decide
theorem test_decode_wrBankselF3 : decodeTableWord 48 0x100A130F3C3 = some (.wrBankselF3 0x00A130F3 0xC3) := by decide
theorem test_decode_wrBankselF4 : decodeTableWord 48 0x100A130F7C7 = some (.wrBankselF4 0x00A130F7 0xC7) := by decide
theorem test_decode_wrBankselF8 : decodeTableWord 48 0x100A130F8C8 = some (.wrBankselF8 0x00A130F8 0xC8) := by decide
theorem test_decode_wrBanksel131 : decodeTableWord 48 0x100A131FFCF = some (.wrBanksel131 0x00A131FF 0xCF) := by decide
theorem test_decode_wrDiscard : decodeIn (blockA false).view 0x100A130F305 = .wrDiscard 0x00A130F3 0x05 := by decide
theorem test_decode_load : decodeIn Block.reset.view (0b10#2 ++ 0#32 ++ 0#8) = .load := by decide
theorem test_decode_unload : decodeIn Block.reset.view (0b11#2 ++ 0#32 ++ 0#8) = .unload := by decide

/-- Fields an operation does not use are ignored (R91), and the encoder writes them 0 (R81). -/
theorem test_decode_ignored_fields :
    decodeTableWord 48 0x312345678FF = some .unload ∧ encode .unload = 0x30000000000#42 ∧ encode (.rdRam 0x00FF0010) = 0x000FF001000#42 := by
  decide

/-- Byte sequences that hold no transaction word are rejected by name (log 14). -/
theorem test_decode_rejects :
    (match decodeBytes View.patternOnly [0, 0, 0, 0, 0] with | .error e => some e | .ok _ => none) = some .truncated ∧
    (match decodeBytes View.patternOnly [0, 0, 0, 0, 0, 4] with | .error e => some e | .ok _ => none) = some .bitsAbove41 := by decide

/-! ### One step of each row -/

/-- P3 line 1. -/
theorem test_rdNotLoaded : reply (exec (.rdNotLoaded 0x100) State.reset) = status .notLoaded := by decide
/-- V-RD/B1 line 6. -/
theorem test_rdFlat : reply (exec (.rdFlat 0x480010) (withBlock (blockB false bank0))) = okByte 0x19 := by decide
/-- P4: `romStart` is subtracted, and the address `romEnd` of an exact-length image is out of range. -/
theorem test_rdFlat_romStart :
    reply (exec (.rdFlat 0x4801FF) (withBlock (blockC false))) = okByte 0x08 ∧
    reply (exec (.rdFlat 0x480200) (withBlock (blockC false))) = status .rangeFault := by decide
/-- V-RD/B2 line 3. -/
theorem test_rdFixed : reply (exec (.rdFixed 0x100) (withBlock (blockB true bank0))) = okByte 0x01 := by decide
/-- V-RD/B2 line 6 and V-RD/B3 line 3 (the source's E4). -/
theorem test_rdWin0 :
    reply (exec (.rdWin0 0x080500) (withBlock (blockB true bank0))) = okByte 0x04 ∧
    reply (exec (.rdWin0 0x080500) (withBlock (blockB true #v[2, 0, 0, 0, 0, 0, 0]))) = okByte 0x07 := by decide
/-- V-RD/B3 lines 11 and 13. -/
theorem test_rdWin1 :
    reply (exec (.rdWin1 0x17FFFF) (withBlock (blockB true #v[2, 255, 0, 0, 0, 0, 9]))) = status .rangeFault ∧
    reply (exec (.rdWin1 0x100500) (withBlock (blockB true #v[2, 1, 0, 0, 0, 0, 9]))) = okByte 0x04 := by decide
/-- R114 by hand: `P(0x180000)` = 3; slice 9 at offset 0x10 is index 0x480010. -/
theorem test_rdWin2 :
    reply (exec (.rdWin2 0x180000) (withBlock (blockB true #v[9, 9, 0, 9, 9, 9, 9]))) = okByte 0x03 ∧
    reply (exec (.rdWin2 0x180010) (withBlock (blockB true #v[0, 0, 9, 0, 0, 0, 0]))) = okByte 0x19 := by decide
/-- As for window 2. -/
theorem test_rdWin3 :
    reply (exec (.rdWin3 0x200000) (withBlock (blockB true #v[9, 9, 9, 0, 9, 9, 9]))) = okByte 0x04 ∧
    reply (exec (.rdWin3 0x200010) (withBlock (blockB true #v[0, 0, 0, 9, 0, 0, 0]))) = okByte 0x19 := by decide
/-- As for window 2. -/
theorem test_rdWin4 :
    reply (exec (.rdWin4 0x280000) (withBlock (blockB true #v[9, 9, 9, 9, 0, 9, 9]))) = okByte 0x05 ∧
    reply (exec (.rdWin4 0x280010) (withBlock (blockB true #v[0, 0, 0, 0, 9, 0, 0]))) = okByte 0x19 := by decide
/-- As for window 2. -/
theorem test_rdWin5 :
    reply (exec (.rdWin5 0x300000) (withBlock (blockB true #v[9, 9, 9, 9, 9, 0, 9]))) = okByte 0x06 ∧
    reply (exec (.rdWin5 0x300010) (withBlock (blockB true #v[0, 0, 0, 0, 0, 9, 0]))) = okByte 0x19 := by decide
/-- V-RD/B3 lines 6 and 7. -/
theorem test_rdWin6 :
    reply (exec (.rdWin6 0x380000) (withBlock (blockB true #v[2, 0, 0, 0, 0, 0, 9]))) = okByte 0x09 ∧
    reply (exec (.rdWin6 0x3FFFFF) (withBlock (blockB true #v[2, 0, 0, 0, 0, 0, 9]))) = okByte 0x09 := by decide
/-- V-WR/B lines 5, 7 and 9. -/
theorem test_rdRam :
    reply (exec (.rdRam 0xFF0FFD) (withBlock (blockB false bank0))) = okByte 0x22 ∧
    reply (exec (.rdRam 0xFF0FFE) (withBlock (blockB false bank0))) = okByte 0x00 ∧
    reply (exec (.rdRam 0xFF0FFF) (withBlock (blockB false bank0))) = status .rangeFault := by decide
/-- V-WR/B line 15 and V-RD/B1 line 12. -/
theorem test_rdSram :
    reply (exec (.rdSram 0x60FFFD) (withBlock (blockB false bank0))) = okByte 0x66 ∧
    reply (exec (.rdSram 0x60FFFF) (withBlock (blockB false bank0))) = status .rangeFault := by decide
/-- V-RD/B1 line 20 and V-RD/B2 line 12. -/
theorem test_rdUnmapped :
    reply (exec (.rdUnmapped 0xC00000) (withBlock (blockB false bank0))) = status .busError ∧
    reply (exec (.rdUnmapped 0x480010) (withBlock (blockB true bank0))) = status .busError := by decide
/-- P3 line 2: nothing loaded, so nothing is armed. -/
theorem test_wrNotLoaded :
    reply (exec (.wrNotLoaded 0xA130F1 0x00) State.reset) = status .notLoaded ∧
    after (exec (.wrNotLoaded 0xA130F1 0x00) State.reset) = some Block.reset := by decide
/-- V-WR/B line 2. -/
theorem test_wrRam :
    (after (exec (.wrRam 0xFF0000 0x11) (withBlock (blockB false bank0)))).map (fun b => b.ram.cells)
      = some [(0, 0x11#8), (0xFFD, 0x22#8)] := by decide
/-- A byte written as 0 is unlisted again: equal arrays are equal data (log 5). -/
theorem test_wrRam_zero :
    (after (exec (.wrRam 0xFF0FFD 0x00) (withBlock (blockB false bank0)))).map (fun b => b.ram.cells) = some [] := by decide
/-- V-WR/B line 12. -/
theorem test_wrSram :
    (after (exec (.wrSram 0x600001 0x5A) (withBlock (blockB false bank0)))).map (fun b => b.sram.cells)
      = some [(0, 0x5A#8), (0xFFFC, 0x66#8)] := by decide
/-- P4: save RAM over the enable register takes the write, and the mapper stays disarmed. -/
theorem test_wrSram_over_register :
    (after (exec (.wrSram 0xA130F1 0x01) (withBlock (blockC false)))).map (fun b => (b.sram.cells, b.armed))
      = some ([(0xF1, 0x01#8)], false) := by decide
/-- V-RD/A line 12: the enable register arms although the cartridge is not capable. -/
theorem test_wrArm : after (exec (.wrArm 0xA130F1 0x01) (withBlock (blockA false))) = some (blockA true) := by decide
/-- V-RD/B3 line 2: the first bank-select write also arms. -/
theorem test_wrBankselF3 :
    after (exec (.wrBankselF3 0xA130F3 0x02) (withBlock (blockB false bank0))) = some (blockB true #v[2, 0, 0, 0, 0, 0, 0]) := by decide
/-- V-SLOT, 0xA130F5 and 0xA130F6. -/
theorem test_wrBankselF4 :
    after (exec (.wrBankselF4 0xA130F5 0xC5) (withBlock (blockB false bank0))) = some (blockB true #v[0, 0xC5, 0, 0, 0, 0, 0]) ∧
    after (exec (.wrBankselF4 0xA130F6 0xC6) (withBlock (blockB false bank0))) = some (blockB true #v[0, 0, 0xC6, 0, 0, 0, 0]) := by
  decide
/-- V-SLOT, 0xA130F8 and 0xA130FF. -/
theorem test_wrBankselF8 :
    after (exec (.wrBankselF8 0xA130F8 0xC8) (withBlock (blockB false bank0))) = some (blockB true #v[0, 0, 0, 0xC8, 0, 0, 0]) ∧
    after (exec (.wrBankselF8 0xA130FF 0xCF) (withBlock (blockB false bank0))) = some (blockB true #v[0, 0, 0, 0, 0, 0, 0xCF]) := by
  decide
/-- V-SLOT, 0xA1310E and 0xA131F1. -/
theorem test_wrBanksel131 :
    after (exec (.wrBanksel131 0xA1310E 0xCE) (withBlock (blockB false bank0))) = some (blockB true #v[0, 0, 0, 0, 0, 0, 0xCE]) ∧
    after (exec (.wrBanksel131 0xA131F1 0xC1) (withBlock (blockB false bank0))) = some (blockB true bank0) := by decide
/-- V-WR/B line 6 and V-RD/A line 14. -/
theorem test_wrDiscard :
    after (exec (.wrDiscard 0xFF0FFE 0x33) (withBlock (blockB false bank0))) = some (blockB false bank0) ∧
    after (exec (.wrDiscard 0xA130F3 0x05) (withBlock (blockA false))) = some (blockA false) := by decide
/-- V-LOAD line 1: sizes, capability, disarmed, over a block that was armed. -/
theorem test_load :
    after (exec .load (withOperand (blockB true #v[1, 2, 3, 4, 5, 6, 7]) (.request reqB)))
      = some { blockB false bank0 with ram := { len := 0xFFF, cells := [] }, sram := { len := 0xFFFE, cells := [] } } := by decide
/-- V-LOAD line 4 (the source's E3), over a loaded block. -/
theorem test_load_fails :
    reply (exec .load (withOperand (blockB true bank0) (.request reqX))) = status .resourceLimitExceeded ∧
    after (exec .load (withOperand (blockB true bank0) (.request reqX))) = some Block.reset := by decide +kernel
/-- P3 line 10. -/
theorem test_unload :
    after (exec .unload (withBlock (blockB true #v[0, 0, 3, 0, 0, 0, 0]))) = some Block.reset ∧
    reply (exec .unload (withBlock (blockB true bank0))) = some { status := none, value := none, warn := false } := by decide

/-- A row outside its condition is the operation the priority order makes of it: nothing is refused (log 1; R84, R87). -/
theorem test_row_outside_condition :
    reply (exec (.rdFlat 0x080500) (withBlock (blockB true #v[2, 0, 0, 0, 0, 0, 0]))) = okByte 0x07 ∧
    after (exec (.wrArm 0xA130F1 0x01) State.reset) = some Block.reset := by decide +kernel

/-! ### The tests of `load`, the host's loader -/

/-- V-LOAD, lines 2, 3, 5 to 8, 15 to 20 and 25 to 27 in turn. -/
theorem test_loadStatus :
    [request 0x1000 0 0xFFF 0xE00000 0xF00000 0x20 0x20 0 0, request 0x1000 0 0xFFF 0xE00000 0xF00001 0x20 0x20 0 0,
      request 0x1000 0 0xFFF 0xFF0000 0xFFFFFF 0x52 0x41 0x200000 0x300000,
      request 0x1000 0 0xFFF 0xFF0000 0xFFFFFF 0x52 0x41 0x200000 0x300001,
      request 0x1000 0 0xFFF 0xFF0000 0xFFFFFF 0x20 0x20 0x200000 0x300001,
      request 0x1000 0 0xFFF 0xFF0000 0xFFFFFF 0xF8 0x00 0x200001 0x203FFF,
      request 0x1000 0 0xFFF 0xFF0001 0xFF0000 0x20 0x20 0 0, request 0x1000 0x200 0x1FF 0xFF0000 0xFFFFFF 0x20 0x20 0 0,
      request 0x1000 0 0xFFF 0xFF0000 0xFFFFFF 0x52 0x41 0x200001 0x200000,
      request 0x1000 0 0xFFF 0xFF0000 0xFFFFFF 0x20 0x20 0x200001 0x200000,
      request 0x1000 0 0x1000 0xFF0000 0xFFFFFF 0x20 0x20 0 0, request 0x1000 0 0x1001 0xFF0000 0xFFFFFF 0x20 0x20 0 0,
      request 0x1000 0 0x1001 0xFF0001 0xFF0000 0x20 0x20 0 0, request 0x1000 0x200 0x1FF 0xE00000 0xF10000 0x20 0x20 0 0,
      request 0x1000 0 0x1001 0xE00000 0xF10000 0x20 0x20 0 0].map loadStatus
      = [.ok, .resourceLimitExceeded, .ok, .resourceLimitExceeded, .ok, .ok, .configInvalid, .configInvalid, .configInvalid, .ok,
          .ok, .headerInvalid, .headerInvalid, .configInvalid, .headerInvalid] := by decide

/-- V-LOAD lines 9 to 14: the save-RAM flag (R173). -/
theorem test_sramPresent :
    [(0x52#8, 0x41#8), (0xF8#8, 0x41#8), (0x52#8, 0x00#8), (0x00#8, 0x41#8), (0x41#8, 0x52#8), (0x00#8, 0xF8#8), (0x72#8, 0x61#8)].map
        (fun x => sramPresentOf x.1 x.2)
      = [true, true, false, false, false, false, false] := by decide

/-- V-LOAD lines 21 and 22: the capability threshold is strict (R175). -/
theorem test_capable :
    capableOf { len := 0x400000, cells := [] } = false ∧ capableOf { len := 0x400001, cells := [] } = true := by decide

/-- Vector H3: every converted field, at its offset. -/
theorem test_header_H3 :
    (decodeHeader (Memory.ofBytes (List.replicate 0x18E 0#8 ++ [1, 2] ++ List.replicate 16 0#8 ++
        [0x01, 0x02, 0x03, 0x04, 0x05, 0x06, 0x07, 0x08, 0x09, 0x0A, 0x0B, 0x0C, 0x0D, 0x0E, 0x0F, 0x10, 0x11, 0x12, 0x13, 0x14,
          0x15, 0x16, 0x17, 0x18, 0x19, 0x1A, 0x1B] ++ List.replicate 67 0#8))).map
        (fun h => [h.checksum.setWidth 32, h.romStart, h.romEnd, h.ramStart, h.ramEnd, h.sramStart, h.sramEnd])
      = some [0x0102, 0x01020304, 0x05060708, 0x090A0B0C, 0x0D0E0F10, 0x14151617, 0x18191A1B] := by decide +kernel

/-- Vectors H4 and H5: 509 bytes are too few, 510 are enough. -/
theorem test_header_length :
    decodeHeader { len := 509, cells := [] } = none ∧ (decodeHeader { len := 510, cells := [] }).isSome = true := by decide

/-- Vectors K1 and K4. -/
theorem test_checksum :
    checksumOf (fileH1 0x0A) = 0x000A#16 ∧
    checksumOf { len := 768, cells := (List.range 258).map (fun i => (510 + i, 0xFF#8)) } = 0x00FE#16 := by decide +kernel

/-- Vectors F1 to F5: the suffix. -/
theorem test_suffix :
    ["game.bin", "GAME.GEN", "game.md", "game.smd", "game.rom", "game", "game.bin.txt"].map (fun p => containerOf p.toList)
      = [some .raw, some .raw, some .raw, none, none, none, none] := by decide

/-- Vector F1, through a whole step: status, warning, sizes, and the header inside the image. -/
theorem test_host_load :
    (after (step (issuing Block.reset 0x20000000000 (.file (loadFile "game.bin" (fileH1 0x0A)))))).map
        (fun b => [b.rom.len, b.ram.len, b.sram.len, (b.rom.byteAt 0x1A6).toNat])
      = some [514, 0xFFFF, 0x3FFE, 0x02] ∧
    reply (step (issuing Block.reset 0x20000000000 (.file (loadFile "game.bin" (fileH1 0x0A))))) = status .ok := by decide +kernel

/-- Vector F9: the warning beside the status. -/
theorem test_host_load_warns :
    reply (step (issuing Block.reset 0x20000000000 (.file (loadFile "game.bin" (fileH1 0x0B)))))
      = some { status := some .ok, value := none, warn := true } := by decide +kernel

/-- Vectors F4, F6 and F7, issued while a cartridge is loaded (F11). -/
theorem test_host_load_fails :
    reply (exec .load (withOperand (blockB true bank0) (.file (loadFile "game.smd" (fileH1 0x0A))))) = status .unsupportedFormat ∧
    reply (exec .load (withOperand (blockB true bank0) (.file (loadFile "game.bin" { fileH1 0x0A with len := 509 }))))
      = status .truncatedHeader ∧
    after (exec .load (withOperand (blockB true bank0)
      (.file (loadFile "game.bin" ((fileH1 0x0A).write 0x1A7 0x03))))) = some Block.reset := by decide +kernel

/-- The status codes of R201, in the table's order. -/
theorem test_status_codes :
    [Status.ok, .busError, .notLoaded, .rangeFault, .resourceLimitExceeded, .headerInvalid, .truncatedHeader, .unsupportedFormat,
      .configInvalid].map (fun x => (Config.statusCode x).toNat) = [0, 1, 2, 3, 4, 5, 6, 7, 8] := by decide

/-- The word placed for the next step is the one it runs. -/
theorem test_withFetchWord :
    after (step ((withBlock (blockB false bank0)).withFetchWord 48 0x100A130F302)) = some (blockB true #v[2, 0, 0, 0, 0, 0, 0]) := by
  decide

/-! ### Witnesses: for every statement with hypotheses, inputs that meet all of them together, each clause at a boundary of its range -/

/-- The invariant holds of a block loaded with `CFG_B`, armed with any bank values or disarmed with none. -/
theorem inv_blockB (armed : Bool) (bank : Vector Byte 7) (h : armed = true ∨ bank = bank0) : (blockB armed bank).Inv := by
  have fixed : (blockB false bank0).SizedIfLoaded ∧ (blockB false bank0).ArraysWf ∧ (blockB false bank0).LastBytesZero := by
    refine ⟨fun _ => ⟨cfgB, rfl, by decide, by decide, by decide, by decide, by decide, fun _ => by decide,
      fun hp => by simp [cfgB] at hp, by decide⟩, ⟨by decide, by decide, by decide⟩, fun i hi => ?_, fun i hi => ?_⟩
    · have : i = 0xFFE := by simp only [blockB] at hi; omega
      subst this
      decide
    · have : i = 0xFFFD := by simp only [blockB] at hi; omega
      subst this
      decide
  refine ⟨fun hl => by simp [blockB] at hl, fixed.1, fun hb => ?_, fixed.2.1, fixed.2.2⟩
  rcases h with rfl | rfl
  · exact ⟨rfl, rfl⟩
  · exact absurd (bank_zeros hb.choose) hb.choose_spec

/-- The disarmed state of `CFG_B`. -/
def sB : State := withBlock (blockB false bank0)

/-- The armed state of `CFG_B`, with window 0 on slice 2. -/
def sB2 : State := withBlock (blockB true #v[2, 0, 0, 0, 0, 0, 0])

/-- The states that the witnesses use meet the invariant. -/
theorem inv_sB : sB.block.Inv ∧ sB2.block.Inv := ⟨inv_blockB _ _ (.inr rfl), inv_blockB _ _ (.inl rfl)⟩

/-- The whole machine's invariant, with an operation issued. -/
theorem inv_issuing (w : TWord) : (issuing (blockB false bank0) w (.request reqB)).Inv := by
  refine ⟨inv_blockB _ _ (.inr rfl), Memory.empty_wf, fun t ht => ?_⟩
  simp only [issuing, List.mem_singleton] at ht
  subst ht
  show romB.wf
  decide

theorem witness_RowInForceDecodesFromItsWord :
    (Instr.rdWin0 0x0FFFFF).wellFormed = true ∧ rowHolds sB2.view (.rdWin0 0x0FFFFF) = true ∧
    (Instr.wrBanksel131 0xA131FF 0xCF).wellFormed = true ∧ rowHolds sB.view (.wrBanksel131 0xA131FF 0xCF) = true ∧
    rowHolds sB.view (.rdFlat 0x4FFFFF) = true ∧ rowHolds sB.view (.wrDiscard 0xFF0FFE 0x33) = true := by decide

theorem witness_PatternRowsDecodeFromBareWord :
    (Instr.rdFixed 0x07FFFF).wellFormed = true ∧ (Instr.rdWin0 0x080000).wellFormed = true ∧ (Instr.rdWin6 0x3FFFFF).wellFormed = true ∧
    (Instr.wrArm 0xA130F1 0x01).wellFormed = true ∧ (Instr.wrBankselF3 0xA130F3 0x02).wellFormed = true ∧
    (Instr.wrBankselF4 0xA130F7 0x02).wellFormed = true ∧ (Instr.wrBankselF8 0xA130F8 0x02).wellFormed = true ∧
    (Instr.wrBanksel131 0xA131FF 0x02).wellFormed = true ∧ Instr.load.wellFormed = true ∧ Instr.unload.wellFormed = true ∧ 42 ≤ 48 := by
  decide

theorem witness_PrintedWordsDecode :
    sB.view.loaded = true ∧ sB.view.capable = true ∧ sB.view.armed = false ∧
    sB.view.cfg = some { romStart := 0x000000, romEnd := 0x4FFFFF, ramStart := 0xFF0000, ramEnd := 0xFF0FFF, sramPresent := true,
                         sramStart := 0x600001, sramEnd := 0x60FFFF } := by decide

theorem witness_EveryWordIsInExactlyOneRow :
    (opT 0x00048001000).toNat < 2 ∧ opT 0x100FF0FFD22 = 1#2 ∧ (Instr.rdFlat 0x480010).wellFormed = true ∧
    rowHolds sB.view (.rdFlat 0x480010) = true ∧
    encode (.rdFlat 0x480010) = encode (decodeIn sB.view 0x00048001000) := by decide

theorem witness_BytesDecodeAsTheirWord :
    2 ^ 42 ≤ 2 ^ 42 ∧ 2 ^ 48 - 1 < 2 ^ 48 ∧ ([] : List Byte).length < 6 ∧ ([0, 0, 0, 0, 0] : List Byte).length < 6 := by decide

theorem witness_StepRunsTheDecodedOperation :
    (issuing (blockB false bank0) 0x00048001000 (.request reqB)).issued = { word := 0x00048001000, operand := .request reqB } :: [] ∧
    decodeIn { loaded := true, capable := true, armed := false, cfg := some cfgB } 0x00048001000 = .rdFlat 0x480010 :=
  ⟨rfl, by decide⟩

theorem witness_IdleStepChangesNothing : sB.issued = [] := rfl

theorem witness_IssuedWordRunsAsItsPatternRow :
    decodeTableWord 48 0x00008050000 = some (.rdWin0 0x080500) ∧ decodeTableWord 48 0x100A130F101 = some (.wrArm 0xA130F1 0x01) := by
  decide

theorem witness_ReadRowsAgreeWithPeekAlgorithm : Instr.rdNotLoaded 0 ∈ readRows 0 ∧ Instr.rdUnmapped 0xFFFFFFFF ∈ readRows 0xFFFFFFFF := by
  decide

theorem witness_WriteRowsAgreeWithPokeAlgorithm :
    Instr.wrNotLoaded 0 0 ∈ writeRows 0 0 ∧ Instr.wrDiscard 0xFFFFFFFF 0xFF ∈ writeRows 0xFFFFFFFF 0xFF := by decide

theorem witness_UnloadedAccessReturnsNotLoaded : State.reset.block.loaded = false := rfl

theorem witness_FlatReadReturnsImageByte :
    sB.block.loaded = true ∧ (sB.block.capable && sB.block.armed) = false ∧ sB.block.cfg = some cfgB ∧
    cfgB.romStart.toNat ≤ (0x4FFFFF : Addr).toNat ∧ (0x4FFFFF : Addr).toNat ≤ cfgB.romEnd.toNat ∧
    (0x4FFFFF : Addr).toNat - cfgB.romStart.toNat < sB.block.rom.len ∧ (blockC false).rom.len ≤ (0x480200 : Addr).toNat - 0x200 := by
  decide

theorem witness_FixedWindowReadsAbsoluteIndex :
    sB2.block.loaded = true ∧ sB2.block.capable = true ∧ sB2.block.armed = true ∧ (0x07FFFF : Addr).toNat ≤ 0x07FFFF ∧ sB2.block.Inv :=
  ⟨rfl, rfl, rfl, by decide, inv_sB.2⟩

theorem witness_BankedWindowReadsSelectedSlice :
    sB2.block.loaded = true ∧ sB2.block.capable = true ∧ sB2.block.armed = true ∧
    (0x080000 + (0 : Fin 7).val * 0x80000 ≤ (0x0FFFFF : Addr).toNat ∧ (0x0FFFFF : Addr).toNat ≤ 0x0FFFFF + (0 : Fin 7).val * 0x80000 ∧
      sB2.block.bank[(0 : Fin 7)] ≠ 0#8) ∧
    (0x080000 + (6 : Fin 7).val * 0x80000 ≤ (0x3FFFFF : Addr).toNat ∧ (0x3FFFFF : Addr).toNat ≤ 0x0FFFFF + (6 : Fin 7).val * 0x80000 ∧
      sB2.block.bank[(6 : Fin 7)] = 0#8) := by decide

theorem witness_RamReadReturnsRamByte :
    sB.block.loaded = true ∧ sB.block.cfg = some cfgB ∧ sB.block.NoRomRule cfgB 0xFF0FFE ∧
    cfgB.ramStart.toNat ≤ (0xFF0FFE : Addr).toNat ∧ (0xFF0FFE : Addr).toNat ≤ cfgB.ramEnd.toNat ∧
    sB.block.NoRomRule cfgB 0xFF0FFF ∧ (0xFF0FFF : Addr).toNat ≤ cfgB.ramEnd.toNat ∧
    sB.block.ram.len ≤ (0xFF0FFF : Addr).toNat - cfgB.ramStart.toNat := by unfold Block.NoRomRule; decide

theorem witness_SramReadReturnsSramByte :
    sB.block.loaded = true ∧ sB.block.cfg = some cfgB ∧ sB.block.NoRomRule cfgB 0x60FFFF ∧
    ¬ (cfgB.ramStart.toNat ≤ (0x60FFFF : Addr).toNat ∧ (0x60FFFF : Addr).toNat ≤ cfgB.ramEnd.toNat) ∧ cfgB.sramPresent = true ∧
    cfgB.sramStart.toNat ≤ (0x60FFFF : Addr).toNat ∧ (0x60FFFF : Addr).toNat ≤ cfgB.sramEnd.toNat ∧
    sB.block.sram.len ≤ (0x60FFFF : Addr).toNat - cfgB.sramStart.toNat ∧
    (0x60FFFE : Addr).toNat - cfgB.sramStart.toNat < sB.block.sram.len := by unfold Block.NoRomRule; decide

theorem witness_UnmappedReadReturnsBusError :
    sB.block.loaded = true ∧ sB.block.cfg = some cfgB ∧ sB.block.NoRomRule cfgB 0x500000 ∧
    ¬ (cfgB.ramStart.toNat ≤ (0x500000 : Addr).toNat ∧ (0x500000 : Addr).toNat ≤ cfgB.ramEnd.toNat) ∧
    ¬ (cfgB.sramPresent = true ∧ cfgB.sramStart.toNat ≤ (0x500000 : Addr).toNat ∧ (0x500000 : Addr).toNat ≤ cfgB.sramEnd.toNat) := by
  unfold Block.NoRomRule; decide

theorem witness_ReadRowsChangeNoState : Instr.rdFlat 0x480010 ∈ readRows 0x480010 ∧ ∃ t, exec (.rdFlat 0x480010) sB = .next t :=
  ⟨by decide, _, rfl⟩

theorem witness_InRangeReadsAlwaysReturnAByte :
    sB2.block.Inv ∧ sB.block.Inv ∧ sB2.block.loaded = true ∧ sB2.block.cfg = some cfgB ∧ Instr.rdWin0 0x0FFFFF ∈ readRows 0x0FFFFF ∧
    ((sB2.block.capable && sB2.block.armed) = true ∧ (0x0FFFFF : Addr).toNat ≤ 0x3FFFFF ∧
      ((sB2.block.bankReg ((0x0FFFFF : Addr).toNat / 0x80000 - 1)).toNat + 1) * 0x80000 ≤ sB2.block.rom.len) ∧
    ((sB.block.capable && sB.block.armed) = false ∧ (0x4FFFFF : Addr).toNat = cfgB.romEnd.toNat ∧
      cfgB.romEnd.toNat - cfgB.romStart.toNat < sB.block.rom.len) ∧
    (sB.block.NoRomRule cfgB 0xFF0FFE ∧ cfgB.ramStart.toNat ≤ (0xFF0FFE : Addr).toNat ∧ (0xFF0FFE : Addr).toNat < cfgB.ramEnd.toNat) ∧
    (sB.block.NoRomRule cfgB 0x60FFFE ∧
      ¬ (cfgB.ramStart.toNat ≤ (0x60FFFE : Addr).toNat ∧ (0x60FFFE : Addr).toNat ≤ cfgB.ramEnd.toNat) ∧ cfgB.sramPresent = true ∧
      cfgB.sramStart.toNat ≤ (0x60FFFE : Addr).toNat ∧ (0x60FFFE : Addr).toNat < cfgB.sramEnd.toNat) := by
  refine ⟨inv_sB.2, inv_sB.1, ?_⟩
  unfold Block.NoRomRule
  decide +kernel

theorem witness_TopRamByteReadsZero :
    sB.block.Inv ∧ sB.block.loaded = true ∧ sB.block.cfg = some cfgB ∧
    (sB.block.NoRomRule cfgB 0xFF0FFE ∧ cfgB.ramStart.toNat ≤ (0xFF0FFE : Addr).toNat ∧ (0xFF0FFE : Addr).toNat + 1 = cfgB.ramEnd.toNat) ∧
    (sB.block.NoRomRule cfgB 0x60FFFE ∧ cfgB.sramPresent = true ∧
      ¬ (cfgB.ramStart.toNat ≤ (0x60FFFE : Addr).toNat ∧ (0x60FFFE : Addr).toNat ≤ cfgB.ramEnd.toNat) ∧
      cfgB.sramStart.toNat ≤ (0x60FFFE : Addr).toNat ∧ (0x60FFFE : Addr).toNat + 1 = cfgB.sramEnd.toNat) := by
  refine ⟨inv_sB.1, ?_⟩
  unfold Block.NoRomRule
  decide

theorem witness_RamWriteStoresOneByte :
    sB.block.Inv ∧ sB.block.loaded = true ∧ sB.block.cfg = some cfgB ∧ cfgB.ramStart.toNat ≤ (0xFF0FFD : Addr).toNat ∧
    (0xFF0FFD : Addr).toNat + 2 ≤ cfgB.ramEnd.toNat ∧ cfgB.ramStart.toNat ≤ (0xFF0FFE : Addr).toNat ∧
    cfgB.ramEnd.toNat < (0xFF0FFE : Addr).toNat + 2 ∧ Instr.wrDiscard 0xFF0FFE 0x33 ∈ writeRows 0xFF0FFE 0x33 := by
  refine ⟨inv_sB.1, ?_⟩
  decide

theorem witness_SramWriteStoresOneByte :
    sB.block.Inv ∧ sB.block.loaded = true ∧ sB.block.cfg = some cfgB ∧ cfgB.sramPresent = true ∧
    (¬ (cfgB.ramStart.toNat ≤ (0x60FFFD : Addr).toNat ∧ (0x60FFFD : Addr).toNat + 2 ≤ cfgB.ramEnd.toNat) ∧
      cfgB.sramStart.toNat ≤ (0x60FFFD : Addr).toNat ∧ (0x60FFFD : Addr).toNat + 2 ≤ cfgB.sramEnd.toNat) ∧
    (¬ (cfgB.ramStart.toNat ≤ (0x60FFFE : Addr).toNat ∧ (0x60FFFE : Addr).toNat + 2 ≤ cfgB.ramEnd.toNat) ∧
      cfgB.sramEnd.toNat < (0x60FFFE : Addr).toNat + 2 ∧ Instr.wrDiscard 0x60FFFE 0x77 ∈ writeRows 0x60FFFE 0x77) := by
  refine ⟨inv_sB.1, ?_⟩
  decide

theorem witness_EnableRegisterArms :
    sB.block.loaded = true ∧ sB.block.cfg = some cfgB ∧ NoRamWrite cfgB 0xA130F1 ∧ (0xA130F1 : Addr) = 0x00A130F1#32 ∧
    (blockA false).loaded = true ∧ (blockA false).capable = false := by unfold NoRamWrite; decide

theorem witness_BankSelectStoresOneRegister :
    sB.block.loaded = true ∧ sB.block.capable = true ∧ sB.block.cfg = some cfgB ∧
    (Instr.wrBankselF3 0xA130F3 0x02 ∈ bankselRows 0xA130F3 0x02 ∧ NoRamWrite cfgB 0xA130F3 ∧ 0xA130F3 ≤ (0xA130F3 : Addr).toNat ∧
      (0xA130F3 : Addr).toNat % 16 / 2 = (0 : Fin 7).val + 1) ∧
    (Instr.wrBanksel131 0xA131FF 0xCF ∈ bankselRows 0xA131FF 0xCF ∧ NoRamWrite cfgB 0xA131FF ∧ (0xA131FF : Addr).toNat ≤ 0xA131FF ∧
      (0xA131FF : Addr).toNat % 16 / 2 = (6 : Fin 7).val + 1) := by unfold NoRamWrite; decide

theorem witness_SlotMinusOneOnlyArms :
    sB.block.loaded = true ∧ sB.block.capable = true ∧ sB.block.cfg = some cfgB ∧
    Instr.wrBanksel131 0xA13100 0xC0 ∈ bankselRows 0xA13100 0xC0 ∧ NoRamWrite cfgB 0xA13100 ∧ 0xA130F3 ≤ (0xA13100 : Addr).toNat ∧
    (0xA13100 : Addr).toNat ≤ 0xA131FF ∧ (0xA13100 : Addr).toNat % 16 / 2 = 0 ∧ (0xA131F1 : Addr).toNat % 16 / 2 = 0 := by
  unfold NoRamWrite; decide

theorem witness_UnclaimedWriteIsDiscarded :
    sB.block.loaded = true ∧ sB.block.cfg = some cfgB ∧ NoRamWrite cfgB 0xA130F2 ∧ (0xA130F2 : Addr).toNat ≠ 0xA130F1 ∧
    ¬ (sB.block.capable = true ∧ 0xA130F3 ≤ (0xA130F2 : Addr).toNat ∧ (0xA130F2 : Addr).toNat ≤ 0xA131FF) ∧
    NoRamWrite cfgB 0xA13200 ∧
    ¬ (sB.block.capable = true ∧ 0xA130F3 ≤ (0xA13200 : Addr).toNat ∧ (0xA13200 : Addr).toNat ≤ 0xA131FF) := by unfold NoRamWrite; decide

theorem witness_WriteRowsChangeOnlyTheirTarget :
    Instr.wrRam 0xFF0FFD 0x22 ∈ writeRows 0xFF0FFD 0x22 ∧ (∃ t, exec (.wrRam 0xFF0FFD 0x22) sB = .next t) ∧
    wrDecode sB.block 0xFF0FFD ≠ .sram 0 ∧ wrDecode sB.block 0xFF0FFD ≠ .arm ∧ wrDecode sB.block 0xFF0FFD ≠ .banksel 0 ∧
    wrDecode sB.block 0xFF0FFD ≠ .ram 0 ∧ Block.reset.loaded = false := by
  refine ⟨by decide, ⟨_, rfl⟩, ?_⟩
  decide

theorem witness_LoadedPokeAlwaysReturnsOk :
    sB.block.Inv ∧ sB.block.loaded = true ∧ Instr.wrArm 0xA130F1 0x00 ∈ writeRows 0xA130F1 0x00 := ⟨inv_sB.1, rfl, by decide⟩

theorem witness_StoresLieInsideTheirArray :
    (blockB false bank0).Inv ∧ (blockB false bank0).loaded = true ∧ wrDecode (blockB false bank0) 0xFF0FFD = .ram 0xFFD ∧
    wrDecode (blockB false bank0) 0x60FFFD = .sram 0xFFFC := by
  refine ⟨inv_blockB _ _ (.inr rfl), ?_⟩
  decide

theorem witness_WriteDecodeIgnoresArmedAndBanks :
    (blockB false bank0).cfg = (blockB true #v[2, 0, 0, 0, 0, 0, 0]).cfg ∧
    (blockB false bank0).capable = (blockB true #v[2, 0, 0, 0, 0, 0, 0]).capable := ⟨rfl, rfl⟩

theorem witness_WrittenByteIsReadBack :
    sB.block.Inv ∧ sB.block.loaded = true ∧ sB.block.cfg = some cfgB ∧
    (sB.block.NoRomRule cfgB 0xFF0FFD ∧ cfgB.ramStart.toNat ≤ (0xFF0FFD : Addr).toNat ∧ (0xFF0FFD : Addr).toNat + 2 ≤ cfgB.ramEnd.toNat ∧
      ∃ t, exec (.wrRam 0xFF0FFD 0x22) sB = .next t) ∧
    (sB.block.NoRomRule cfgB 0x60FFFD ∧ cfgB.sramPresent = true ∧
      ¬ (cfgB.ramStart.toNat ≤ (0x60FFFD : Addr).toNat ∧ (0x60FFFD : Addr).toNat ≤ cfgB.ramEnd.toNat) ∧
      cfgB.sramStart.toNat ≤ (0x60FFFD : Addr).toNat ∧ (0x60FFFD : Addr).toNat + 2 ≤ cfgB.sramEnd.toNat ∧
      ∃ t, exec (.wrSram 0x60FFFD 0x66) sB = .next t) := by
  unfold Block.NoRomRule
  exact ⟨inv_sB.1, rfl, rfl, ⟨by decide, by decide, by decide, _, rfl⟩, by decide, rfl, by decide, by decide, by decide, _, rfl⟩

theorem witness_RamUnderRomIsWriteOnly :
    (blockC false).loaded = true ∧ ¬ (blockC false).NoRomRule ((blockC false).cfg.getD cfgB) 0x200010 ∧
    ((blockC false).cfg.getD cfgB).ramStart.toNat ≤ (0x200010 : Addr).toNat ∧
    (0x200010 : Addr).toNat + 2 ≤ ((blockC false).cfg.getD cfgB).ramEnd.toNat ∧
    (∃ t, exec (.wrRam 0x200010 0xAA) (withBlock (blockC false)) = .next t) ∧ Instr.rdFlat 0x200010 ∈ readRows 0x200010 ∧
    ∃ o, exec (.rdFlat 0x200010) (withBlock (blockC false)) = .next o := by
  unfold Block.NoRomRule
  exact ⟨rfl, by decide, by decide, by decide, ⟨_, rfl⟩, by decide, _, rfl⟩

theorem witness_IncapablePokesKeepRomReads :
    (blockA false).capable = false ∧ Instr.wrArm 0xA130F1 0x01 ∈ writeRows 0xA130F1 0x01 ∧
    (∃ t, exec (.wrArm 0xA130F1 0x01) (withBlock (blockA false)) = .next t) ∧ (∃ n, rdDecode (blockA false) 0xFFF = .rom n) ∧
    Instr.rdFlat 0xFFF ∈ readRows 0xFFF ∧ ∃ o, exec (.rdFlat 0xFFF) (withBlock (blockA false)) = .next o :=
  ⟨rfl, by decide, ⟨_, rfl⟩, ⟨0xFFF, by decide⟩, by decide, _, rfl⟩

theorem witness_ArmingReplacesTheFlatMap :
    (blockB false bank0).capable = true ∧ (blockB false bank0).armed = false ∧ (blockB false bank0).cfg = some cfgB ∧
    0x3FFFFF < (0x400000 : Addr).toNat ∧ (0x3FFFFF : Addr).toNat ≤ 0x3FFFFF ∧ (∀ k : Fin 7, (blockB false bank0).bank[k] = 0#8) ∧
    cfgB.romStart.toNat ≤ (0x4FFFFF : Addr).toNat ∧ (0x4FFFFF : Addr).toNat ≤ cfgB.romEnd.toNat := by decide

theorem witness_WideRegisterWritesSplitIntoBytes :
    sB.block.loaded = true ∧ sB.block.capable = true ∧ sB.block.cfg = some cfgB ∧
    (∀ a : Addr, 0xA130F2 ≤ a.toNat → a.toNat ≤ 0xA130F5 → NoRamWrite cfgB a) ∧
    (∃ t u, exec (.wrDiscard 0x00A130F2 0x12) sB = .next t ∧ exec (.wrBankselF3 0x00A130F3 0x34) t = .next u) ∧
    (∃ t u, exec (.wrBankselF4 0x00A130F4 0x12) sB = .next t ∧ exec (.wrBankselF4 0x00A130F5 0x34) t = .next u) ∧
    ∃ t u, exec (.wrBankselF4 0x00A130F5 0x12) sB = .next t ∧ exec (.wrBankselF4 0x00A130F4 0x34) t = .next u := by
  refine ⟨rfl, rfl, rfl, fun a h1 h2 => ?_, ⟨_, _, rfl, rfl⟩, ⟨_, _, rfl, rfl⟩, _, _, rfl, rfl⟩
  unfold NoRamWrite cfgB
  simp
  omega

theorem witness_SlotNumberFromAddressBits :
    (blockB false bank0).cfg = some cfgB ∧ (blockB false bank0).capable = true ∧ NoRamWrite cfgB 0xA130F3 ∧
    0xA130F3 ≤ (0xA130F3 : Addr).toNat ∧ NoRamWrite cfgB 0xA131FF ∧ (0xA131FF : Addr).toNat ≤ 0xA131FF := by unfold NoRamWrite; decide

theorem witness_BankedIndexIsConcatenation : (255#8 : Byte) ≠ 0#8 := by decide

theorem witness_RefusePoliciesGiveNoMeaning :
    0x4FFFFF < romB.len ∧ (0xA13102 : Addr).toNat % 16 / 2 ≠ 0 := by decide

theorem witness_GoodRequestLoads :
    (true = true ↔ (reqB.sramFlag0 = 0x52#8 ∧ reqB.sramFlag1 = 0x41#8) ∨ reqB.sramFlag0 = 0xF8#8) ∧
    reqB.romStart.toNat ≤ reqB.romEnd.toNat ∧ reqB.romEnd.toNat - reqB.romStart.toNat ≤ reqB.rom.len ∧
    reqB.ramStart.toNat ≤ reqB.ramEnd.toNat ∧ reqB.ramEnd.toNat - reqB.ramStart.toNat ≤ 0x100000 ∧
    reqB.sramStart.toNat ≤ reqB.sramEnd.toNat ∧ reqB.sramEnd.toNat - reqB.sramStart.toNat ≤ 0x100000 ∧
    (withOperand Block.reset (.request reqB)).operand = .request reqB := by decide

/-- V-LOAD lines 16, 20, 15, 3, 17 and 6, one for each failure in turn. -/
theorem witness_BadRequestFailsInOrder :
    (withOperand Block.reset (.request reqX)).operand = .request reqX ∧
    (let r := request 0x1000 0x200 0x1FF 0xFF0000 0xFFFFFF 0x20 0x20 0 0; r.romEnd.toNat < r.romStart.toNat) ∧
    (let r := request 0x1000 0 0x1001 0xFF0000 0xFFFFFF 0x20 0x20 0 0;
      (r.romStart.toNat ≤ r.romEnd.toNat ∧ r.rom.len < r.romEnd.toNat - r.romStart.toNat)) ∧
    (let r := request 0x1000 0 0xFFF 0xFF0001 0xFF0000 0x20 0x20 0 0;
      (r.romEnd.toNat - r.romStart.toNat ≤ r.rom.len ∧ r.ramEnd.toNat < r.ramStart.toNat)) ∧
    (let r := request 0x1000 0 0xFFF 0xE00000 0xF00001 0x20 0x20 0 0;
      (r.ramStart.toNat ≤ r.ramEnd.toNat ∧ 0x100000 < r.ramEnd.toNat - r.ramStart.toNat)) ∧
    (let r := request 0x1000 0 0xFFF 0xFF0000 0xFFFFFF 0x52 0x41 0x200001 0x200000;
      ((true = true ↔ (r.sramFlag0 = 0x52#8 ∧ r.sramFlag1 = 0x41#8) ∨ r.sramFlag0 = 0xF8#8) ∧
        r.ramEnd.toNat - r.ramStart.toNat ≤ 0x100000 ∧ r.sramEnd.toNat < r.sramStart.toNat)) ∧
    (let r := request 0x1000 0 0xFFF 0xFF0000 0xFFFFFF 0x52 0x41 0x200000 0x300001;
      (r.ramEnd.toNat - r.ramStart.toNat ≤ 0x100000 ∧ 0x100000 < r.sramEnd.toNat - r.sramStart.toNat)) := by decide

/-- A step of each operation: `unload`, a `load` that succeeds, one that fails, `load` from a file, and a `peek`. -/
theorem witness_LifecycleTransitions :
    (opT 0x30000000000 = 3#2 ∧ opT 0x20000000000 = 2#2 ∧ (opT 0x00048001000).toNat < 2) ∧
    (∃ t, step (issuing (blockB false bank0) 0x30000000000 (.request reqB)) = .next t) ∧
    (∃ t, step (issuing (blockB false bank0) 0x20000000000 (.request reqB)) = .next t ∧ t.response = status .ok) ∧
    (∃ t, step (issuing (blockB false bank0) 0x20000000000 (.request reqX)) = .next t ∧ t.response ≠ status .ok) ∧
    (∃ t, step (issuing (blockB false bank0) 0x20000000000 (.file (loadFile "game.bin" (fileH1 0x0A)))) = .next t) ∧
    ∃ t, step (issuing (blockB false bank0) 0x00048001000 (.request reqB)) = .next t :=
  ⟨by decide, ⟨_, rfl⟩, ⟨_, rfl, by decide⟩, ⟨_, rfl, by decide⟩, ⟨_, rfl⟩, _, rfl⟩

theorem witness_CapableIffImageOverFourMiB :
    ∃ t, exec .load (withOperand Block.reset (.request reqB)) = .next t ∧ t.block.loaded = true := ⟨_, rfl, by decide⟩

theorem witness_ArmedIsSetAndClearedAsStated :
    (opT 0x00048001000 = 0#2 ∧ opT 0x100A130F100 = 1#2 ∧ opT 0x20000000000 = 2#2 ∧ opT 0x30000000000 = 3#2) ∧
    (∃ t, step (issuing (blockB false bank0) 0x00048001000 (.request reqB)) = .next t) ∧
    (∃ t, step (issuing (blockB false bank0) 0x100A130F100 (.request reqB)) = .next t ∧ t.block.armed = true) ∧
    (∃ t, step (issuing (blockB false bank0) 0x100A130F200 (.request reqB)) = .next t ∧ t.block.armed = false) ∧
    (∃ t, step (issuing (blockB true bank0) 0x20000000000 (.request reqB)) = .next t) ∧
    ∃ t, step (issuing (blockB true bank0) 0x30000000000 (.request reqB)) = .next t :=
  ⟨by decide, ⟨_, rfl⟩, ⟨_, rfl, by decide⟩, ⟨_, rfl, by decide⟩, ⟨_, rfl⟩, _, rfl⟩

/-- A header with every field of its width. -/
def headerZ : Header :=
  { vectorTable := List.replicate 256 0, consoleName := List.replicate 16 0x20, copyright := List.replicate 16 0x20
    domesticName := List.replicate 48 0x20, overseasName := List.replicate 48 0x20, kind := [0x47, 0x4D, 0x20]
    productCode := List.replicate 11 0x30, checksum := 0xBEEF, ioSupport := List.replicate 16 0x4A, romStart := 0x200
    romEnd := 0x480200, ramStart := 0x200000, ramEnd := 0x200FFF, sramFlag := [0xF8, 0], reserved := [0xFF], sramStart := 0xA13000
    sramEnd := 0xA130F4, modem := List.replicate 12 0, memo := List.replicate 40 0, country := List.replicate 15 0x55 }

theorem witness_HeaderRoundTrip : headerZ.wf := by decide +kernel

theorem witness_HeaderFieldsAreBigEndian : ∃ h, decodeHeader (fileH1 0x0A) = some h := ⟨_, rfl⟩

theorem witness_ChecksumSumsTheBody : (fileH1 0x0A).wf := by decide

theorem witness_ImageIsTheWholeFile :
    (loadFile "game.bin" (fileH1 0x0A)).reread.wf ∧ headerZ.declaredLen = 0x480000 ∧
    { headerZ with romStart := 0, romEnd := 514 }.declaredLen ≤ ((loadFile "game.bin" (fileH1 0x0A)).reread.len : Int) ∧
    510 ≤ (loadFile "game.bin" (fileH1 0x0A)).reread.len ∧
    ((loadFile "game.bin" (fileH1 0x0A)).reread.len : Int) < { headerZ with romStart := 0, romEnd := 515 }.declaredLen := by decide

theorem witness_SuffixSelectsContainer :
    ['.', 'G', 'E', 'N'].map Char.toLower ∈ [['.', 'b', 'i', 'n'], ['.', 'g', 'e', 'n'], ['.', 'm', 'd']] ∧
    ['.', 'S', 'm', 'd'].map Char.toLower = ['.', 's', 'm', 'd'] ∧
    ∀ x ∈ [['.', 'b', 'i', 'n'], ['.', 'g', 'e', 'n'], ['.', 'm', 'd'], ['.', 's', 'm', 'd']],
      x.isSuffixOf (['g', 'a', 'm', 'e', '.', 'r', 'o', 'm'].map Char.toLower) = false := by decide

/-- Vectors F5, F6, F7 and F1, one for each test in turn. -/
theorem witness_HostLoadRunsItsTestsInOrder :
    (withOperand Block.reset (.file (loadFile "game.bin" (fileH1 0x0A)))).operand = .file (loadFile "game.bin" (fileH1 0x0A)) ∧
    containerOf (loadFile "game.rom" (fileH1 0x0A)).path = none ∧ containerOf (loadFile "game.bin" (fileH1 0x0A)).path = some .raw ∧
    (loadFile "game.bin" { fileH1 0x0A with len := 509 }).bytes.len < 510 ∧
    (∃ h, decodeHeader ((fileH1 0x0A).write 0x1A7 0x03) = some h ∧
      (((fileH1 0x0A).write 0x1A7 0x03).len : Int) < (h.romEnd.toNat : Int) - (h.romStart.toNat : Int)) ∧
    ∃ h, decodeHeader (fileH1 0x0A) = some h ∧ (h.romEnd.toNat : Int) - (h.romStart.toNat : Int) ≤ ((fileH1 0x0A).len : Int) :=
  ⟨rfl, by decide, by decide, by decide, ⟨_, rfl, by decide +kernel⟩, _, rfl, by decide +kernel⟩

theorem witness_HostRequestCarriesHeaderAndFile :
    (loadFile "game.bin" (fileH1 0x0A)).bytes.wf ∧
    (loadFile "game.bin" (fileH1 0x0A)).reread = (loadFile "game.bin" (fileH1 0x0A)).bytes ∧
    (∃ h, decodeHeader (loadFile "game.bin" (fileH1 0x0A)).bytes = some h ∧
      h.declaredLen ≤ ((loadFile "game.bin" (fileH1 0x0A)).bytes.len : Int)) ∧
    containerOf (loadFile "game.bin" (fileH1 0x0A)).path = some .raw :=
  ⟨by decide, rfl, ⟨_, rfl, by decide +kernel⟩, by decide⟩

theorem witness_EveryStepKeepsTheInvariant :
    (issuing (blockB false bank0) 0x100FF000011 (.request reqB)).Inv ∧
    ∃ t, step (issuing (blockB false bank0) 0x100FF000011 (.request reqB)) = .next t := ⟨inv_issuing _, _, rfl⟩

theorem witness_EveryStepCompletes : (issuing (blockB false bank0) 0x20000000000 (.request reqB)).Inv := inv_issuing _

theorem witness_RunWithoutLifecycleKeepsLoadAndArming :
    (∀ tr ∈ (issuing (blockB true bank0) 0x100FF000011 (.request reqB)).issued, (opT tr.word).toNat < 2) ∧
    (issuing (blockB true bank0) 0x100FF000011 (.request reqB)).block.armed = true ∧
    ∃ t, Sys2Proof.core.run 2 (issuing (blockB true bank0) 0x100FF000011 (.request reqB)) = .next t := ⟨by decide, rfl, _, rfl⟩

theorem witness_EveryRunCompletesInvariantly : (issuing (blockB false bank0) 0x100A130F302 (.request reqB)).Inv := inv_issuing _

end Sys2Proof.Tests
end

section
/-! The policies of R10: what their value `refuse` refuses, and that it changes nothing else. -/

namespace Sys2Proof.Machine

/-! ### `OOR_POLICY` (R117) -/

/-- Inside the array the policy of `fetch` is not asked. -/
theorem fetch_of_lt {m : Memory} {i : Nat} (pol : OorPolicy) (s : State) (h : i < m.len) :
    fetch pol m i s = .next (s.respond (Response.ofByte (lookupCell i m.cells))) :=
  fetch_of_read (Memory.read_eq_some h)

/-- Past the end of the array the value `refuse` gives the read no meaning. -/
theorem fetch_refuse_of_len_le {m : Memory} {i : Nat} (s : State) (h : m.len ≤ i) :
    fetch .refuse m i s = .refused .readOutsideArray := by
  rw [fetch, Memory.read_eq_none h]

/-- Under `refuse` a read is refused exactly past the end of its array. -/
theorem fetch_refuse_eq_refused_iff {m : Memory} {i : Nat} {s : State} :
    fetch .refuse m i s = .refused .readOutsideArray ↔ m.len ≤ i := by
  refine ⟨fun h => ?_, fetch_refuse_of_len_le s⟩
  by_contra hlt
  rw [fetch_of_lt .refuse s (Nat.not_le.1 hlt)] at h
  cases h

/-! ### `SLOT_M1_POLICY` (R90) -/

/-- The slot of an address names a bank register exactly when its low nibble is neither 0 nor 1 (R88). -/
theorem bankSlot_inRange_iff (a : Addr) : (0 ≤ bankSlot a ∧ bankSlot a ≤ 6) ↔ a.toNat % 16 / 2 ≠ 0 := by
  rw [bankSlot_eq]
  omega

/-- On a slot that names a bank register the policy of `bankSelect` is not asked. -/
theorem bankSelect_of_inRange {k : Int} (pol : SlotM1Policy) (v : Byte) (s : State) (h : 0 ≤ k ∧ k ≤ 6) :
    bankSelect pol k v s = finish (s.block.arm.setBank k.toNat v) s :=
  if_pos h

/-- On a slot that names no bank register the value `refuse` gives the write no meaning. -/
theorem bankSelect_refuse_of_not_inRange {k : Int} (v : Byte) (s : State) (h : ¬ (0 ≤ k ∧ k ≤ 6)) :
    bankSelect .refuse k v s = .refused .slotMinusOne :=
  if_neg h

/-- Under `refuse` a bank-select write is refused exactly when its slot names no bank register. -/
theorem bankSelect_refuse_eq_refused_iff {k : Int} {v : Byte} {s : State} :
    bankSelect .refuse k v s = .refused .slotMinusOne ↔ ¬ (0 ≤ k ∧ k ≤ 6) := by
  refine ⟨fun h hk => ?_, bankSelect_refuse_of_not_inRange v s⟩
  rw [bankSelect_of_inRange .refuse v s hk, finish_eq] at h
  cases h

/-- Settles O41: each policy is asked in its own case only, past the end of the array for `fetch`, on slot -1 for `bankSelect`. -/
theorem refusePoliciesGiveNoMeaning : Obligations.RefusePoliciesGiveNoMeaning := by
  refine ⟨fun m i s => fetch_refuse_eq_refused_iff, fun m i s h => ?_, fun a v s => ?_, fun a v s h => ?_⟩
  · rw [fetch_of_lt .refuse s h, fetch_of_lt .fault s h]
  · rw [bankSelect_refuse_eq_refused_iff, bankSlot_inRange_iff, not_not]
  · have hk := (bankSlot_inRange_iff a).2 h
    rw [bankSelect_of_inRange .refuse v s hk, bankSelect_of_inRange .armOnly v s hk]

end Sys2Proof.Machine
end

section
/-! What the rows of one operation do: a row of a `peek` only responds, a row of a `poke` runs the algorithm of R140, and a `load`
does not depend on the block it replaces. -/

namespace Sys2Proof.Machine

/-! ### The algorithm of `poke`, one equation per target (R140) -/

theorem poke_of_not_loaded {s : State} (pol : SlotM1Policy) (a : Addr) (v : Byte) (hl : s.block.loaded = false) :
    poke pol a v s = raiseStatus .notLoaded s := by simp [poke, hl]

theorem poke_of_ram {s : State} {a : Addr} {i : Nat} (pol : SlotM1Policy) (v : Byte) (hl : s.block.loaded = true)
    (hw : wrDecode s.block a = .ram i) : poke pol a v s = storeRam i v s := by simp [poke, hl, hw]

theorem poke_of_sram {s : State} {a : Addr} {i : Nat} (pol : SlotM1Policy) (v : Byte) (hl : s.block.loaded = true)
    (hw : wrDecode s.block a = .sram i) : poke pol a v s = storeSram i v s := by simp [poke, hl, hw]

theorem poke_of_arm {s : State} {a : Addr} (pol : SlotM1Policy) (v : Byte) (hl : s.block.loaded = true)
    (hw : wrDecode s.block a = .arm) : poke pol a v s = armMapper s := by simp [poke, hl, hw]

theorem poke_of_banksel {s : State} {a : Addr} {k : Int} (pol : SlotM1Policy) (v : Byte) (hl : s.block.loaded = true)
    (hw : wrDecode s.block a = .banksel k) : poke pol a v s = bankSelect pol k v s := by simp [poke, hl, hw]

theorem poke_of_discard {s : State} {a : Addr} (pol : SlotM1Policy) (v : Byte) (hl : s.block.loaded = true)
    (hw : wrDecode s.block a = .discard) : poke pol a v s = raiseStatus .ok s := by simp [poke, hl, hw]

/-! ### The write decode by the conditions of the rows (R85) -/

/-- Where neither RAM row claims the address, the registers are asked for it in turn. -/
theorem wrDecode_of_not_ramClaims {b : Block} {a : Addr} (h : b.view.ramClaims a = false) :
    wrDecode b a
      = if a.toNat = 0xA130F1 then .arm
        else if 0xA130F3 ≤ a.toNat ∧ a.toNat ≤ 0xA131FF ∧ b.capable = true then .banksel (bankSlot a) else .discard := by
  simp only [View.ramClaims, Bool.or_eq_false_iff] at h
  simp [wrDecode, h.1, h.2, and_assoc]

/-- A bank-select pattern row runs `poke`: its address range lies in that of the bank-select registers. -/
theorem bankSelect_eq_poke {s : State} {a : Addr} {lo hi : Nat} (pol : SlotM1Policy) (v : Byte)
    (h : (s.view.loaded && s.view.capable && inRange lo hi a && !s.view.ramClaims a) = true) (hlo : 0xA130F3 ≤ lo)
    (hhi : hi ≤ 0xA131FF) : bankSelect pol (bankSlot a) v s = poke pol a v s := by
  simp only [inRange, Bool.and_eq_true, decide_eq_true_eq, Bool.not_eq_true', State.view_eq, Block.view_loaded,
    Block.view_capable] at h
  obtain ⟨⟨⟨hl, hcap⟩, ha⟩, hn⟩ := h
  refine (poke_of_banksel pol v hl ?_).symm
  rw [wrDecode_of_not_ramClaims hn, if_neg (by omega), if_pos ⟨by omega, by omega, hcap⟩]

/-- Each of the nine rows of a `poke` is the algorithm of R140, whether or not the row's condition holds. -/
theorem exec_writeRows_eq_poke {i : Instr} {a : Addr} {v : Byte} (hi : i ∈ writeRows a v) (s : State) :
    exec i s = poke Config.slotM1Policy a v s := by
  simp only [writeRows, List.mem_cons, List.not_mem_nil, or_false] at hi
  rcases hi with rfl | rfl | rfl | rfl | rfl | rfl | rfl | rfl | rfl <;> refine ite_eq_right_iff.2 fun h => ?_
  · -- WR.NOTLOADED
    exact (poke_of_not_loaded _ a v (by simpa [rowHolds] using h)).symm
  · -- WR.RAM
    simp only [rowHolds, State.view_eq, Block.view_loaded, Bool.and_eq_true] at h
    exact (poke_of_ram _ v h.1 (if_pos h.2)).symm
  · -- WR.SRAM
    simp only [rowHolds, State.view_eq, Block.view_loaded, Bool.and_eq_true, Bool.not_eq_true'] at h
    obtain ⟨⟨hl, hs⟩, hr⟩ := h
    exact (poke_of_sram _ v hl (by simp [wrDecode, hs, hr])).symm
  · -- WR.ARM
    simp only [rowHolds, State.view_eq, Block.view_loaded, Bool.and_eq_true, Bool.not_eq_true', inRange, decide_eq_true_eq,
      Config.regArm] at h
    obtain ⟨⟨hl, ha⟩, hn⟩ := h
    exact (poke_of_arm _ v hl (by rw [wrDecode_of_not_ramClaims hn, if_pos (by omega)])).symm
  · exact bankSelect_eq_poke _ v h (by decide) (by decide)
  · exact bankSelect_eq_poke _ v h (by decide) (by decide)
  · exact bankSelect_eq_poke _ v h (by decide) (by decide)
  · exact bankSelect_eq_poke _ v h (by decide) (by decide)
  · -- WR.DISCARD
    simp only [rowHolds, State.view_eq, Block.view_loaded, Block.view_capable, Bool.and_eq_true, Bool.not_eq_true',
      Bool.or_eq_false_iff, Bool.and_eq_false_iff, inRange, decide_eq_false_iff_not, Config.regArm, Config.regBankLo,
      Config.regBankHi] at h
    obtain ⟨hl, ⟨hn, ha⟩, hr⟩ := h
    refine (poke_of_discard _ v hl ?_).symm
    rw [wrDecode_of_not_ramClaims hn, if_neg (by omega), if_neg]
    rintro ⟨h1, h2, hcap⟩
    rcases hr with hr | hr
    · simp [hcap] at hr
    · omega

/-! ### The rows of a `peek` -/

/-- The shape of every row of a `peek`: its own rule where its condition holds, the algorithm of R110 where it does not. If the rule
only responds, so does the row. -/
theorem ite_peek_responds {p : Prop} [Decidable p] {o : Out} {a : Addr} {s : State} (h : ∃ r, o = .next (s.respond r)) :
    ∃ r, (if p then o else peek Config.oorPolicy a s) = .next (s.respond r) := by
  split
  · exact h
  · obtain ⟨r, hr, -⟩ := peek_responds a s
    exact ⟨r, hr⟩

/-- Each of the thirteen rows of a `peek` answers, and nothing but the response changes (R59). -/
theorem exec_readRows_responds {i : Instr} {a : Addr} (hi : i ∈ readRows a) (s : State) :
    ∃ r, exec i s = .next (s.respond r) := by
  have hraise : ∀ st, ∃ r, raiseStatus st s = .next (s.respond r) := fun st => ⟨_, rfl⟩
  have hfetch : ∀ m n, ∃ r, fetch Config.oorPolicy m n s = .next (s.respond r) := fun m n =>
    (fetch_responds m n).imp fun _ h => h s
  simp only [readRows, List.mem_cons, List.not_mem_nil, or_false] at hi
  rcases hi with rfl | rfl | rfl | rfl | rfl | rfl | rfl | rfl | rfl | rfl | rfl | rfl | rfl
  case inl => exact ite_peek_responds (hraise _)
  case inr.inr.inr.inr.inr.inr.inr.inr.inr.inr.inr.inr => exact ite_peek_responds (hraise _)
  all_goals exact ite_peek_responds (hfetch _ _)

/-! ### `load` and the block it replaces -/

/-- A `load` starts with `unload` (R172, R246), so it reads nothing of the block that stood there. -/
theorem exec_load_withBlock (s : State) (b : Block) : exec .load (s.withBlock b) = exec .load s := by
  show execLoad (s.withBlock b) = execLoad s
  unfold execLoad
  rw [State.withBlock_operand]
  rcases s.operand with r | f <;> rfl

/-- A `load` always answers. -/
theorem exec_load_answers (s : State) : ∃ t, exec .load s = .next t := by
  show ∃ t, execLoad s = .next t
  unfold execLoad
  split
  · exact loadTested_answers _ _ _
  · unfold loadPath
    simp only
    split
    · exact ⟨_, rfl⟩
    split
    · exact ⟨_, rfl⟩
    split
    · exact ⟨_, rfl⟩
    · exact loadTested_answers _ _ _

end Sys2Proof.Machine
end

section
/-! What one step does, by the operation field of the word it runs (R61, R80, R81). -/

namespace Sys2Proof.Machine

/-- A step with nothing issued (log 13). -/
theorem step_nil {s : State} (h : s.issued = []) : step s = .next s := by
  unfold step
  rw [h]

section
variable {s : State} {tr : Transaction} {rest : List Transaction} (h : s.issued = tr :: rest)
include h

/-- A step on a `peek` answers, and only takes the operation and responds. -/
theorem step_peek (ho : opT tr.word = 0#2) : ∃ r, step s = .next ((s.accept tr rest).respond r) := by
  rw [step_cons h, show decodeIn s.view tr.word = readRow s.view (addrT tr.word) by simp [decodeIn, ho]]
  exact exec_readRows_responds (readRow_mem _ _) _

/-- A step on a `poke` is the algorithm of R140. -/
theorem step_poke (ho : opT tr.word = 1#2) :
    step s = poke .armOnly (addrT tr.word) (dataT tr.word) (s.accept tr rest) := by
  rw [step_cons h, show decodeIn s.view tr.word = writeRow s.view (addrT tr.word) (dataT tr.word) by simp [decodeIn, ho]]
  exact exec_writeRows_eq_poke (writeRow_mem _ _ _) _

/-- A step on a `load`. -/
theorem step_load (ho : opT tr.word = 2#2) : step s = exec .load (s.accept tr rest) := by
  rw [step_cons h, show decodeIn s.view tr.word = .load by simp [decodeIn, ho]]

/-- A step on an `unload` leaves the reset block (R176). -/
theorem step_unload (ho : opT tr.word = 3#2) :
    step s = .next (((s.accept tr rest).withBlock Block.reset).respond { status := none, value := none, warn := false }) := by
  rw [step_cons h, show decodeIn s.view tr.word = .unload by simp [decodeIn, ho]]
  rfl

/-- What a step leaves of the queue and the operand port, whatever the operation (R61, R81). -/
theorem step_issued_operand {t : State} (ht : step s = .next t) : t.issued = rest ∧ t.operand = tr.operand := by
  rcases opT_cases tr.word with ho | ho | ho | ho
  · obtain ⟨r, hr⟩ := step_peek h ho
    rw [hr] at ht
    cases ht
    exact ⟨rfl, rfl⟩
  · rw [step_poke h ho] at ht
    obtain ⟨hi, hop, -⟩ := poke_next ht
    exact ⟨hi, hop⟩
  · rw [step_load h ho] at ht
    obtain ⟨hi, hop, -⟩ := execLoad_next ht
    exact ⟨hi, hop⟩
  · rw [step_unload h ho] at ht
    cases ht
    exact ⟨rfl, rfl⟩

end

end Sys2Proof.Machine
end

section
/-! The invariant R36: it holds at reset, every operation on the block keeps it, so every step does; and every step from it answers. -/

namespace Sys2Proof.Machine

/-! ### Reset and the commit of a `load` -/

/-- The reset block meets the invariant (R35). -/
theorem Block.inv_reset : Block.reset.Inv := by
  refine ⟨fun _ => ⟨rfl, rfl, rfl, rfl, rfl, rfl, bank_zeros⟩, (nomatch ·), fun ⟨k, hk⟩ => absurd (bank_zeros k) hk,
    ⟨Memory.empty_wf, Memory.empty_wf, Memory.empty_wf⟩, fun _ => (nomatch ·), fun _ => (nomatch ·)⟩

/-- A committed request whose tests passed meets the invariant (R172). -/
theorem Block.inv_commit {r : LoadRequest} (b : Block) (hr : loadStatus r = .ok) (hrom : r.rom.wf) : (b.commit r).Inv := by
  obtain ⟨hromLe, hromLen, hramLe, hramMax, hsram⟩ := (loadStatus_eq_ok_iff r).1 hr
  refine ⟨(nomatch ·), fun _ => ⟨r.config, rfl, hromLe, hromLen, hramLe, rfl, hramMax, fun hp => ?_, fun hp => ?_, ?_⟩,
    fun ⟨k, hk⟩ => absurd (bank_zeros k) hk, ⟨hrom, Memory.zeros_wf _, Memory.zeros_wf _⟩,
    fun i hi => Memory.read_zeros (Nat.lt_of_succ_le hi.le), fun i hi => Memory.read_zeros (Nat.lt_of_succ_le hi.le)⟩
  · have hp : r.present = true := hp
    have hsize : r.sramSize = r.sramEnd.toNat - r.sramStart.toNat := by simp [LoadRequest.sramSize, hp]
    exact ⟨(hsram hp).1, hsize, hsize.trans_le (hsram hp).2⟩
  · have hp : r.present = false := hp
    simp [LoadRequest.sramSize, hp]
  · simp [capableOf]

/-! ### The effects of a `poke` on the block -/

/-- A RAM store below the last byte keeps the invariant (R142). -/
theorem Block.Inv.writeRam {b : Block} {j : Nat} (hb : b.Inv) (hl : b.loaded = true) (hj : j + 2 ≤ b.ram.len) (v : Byte) :
    (b.writeRam j v).Inv := by
  obtain ⟨-, hsized, hbank, ⟨hrom, hram, hsram⟩, hlast⟩ := hb
  refine ⟨fun h => by simp [hl] at h, hsized, hbank, ⟨hrom, Memory.write_wf hram (by omega), hsram⟩, fun i hi => ?_, hlast.2⟩
  simp only [Block.writeRam_ram, Memory.write_len] at hi ⊢
  rw [Memory.read_write_ne v (by omega)]
  exact hlast.1 i hi

/-- A save-RAM store below the last byte keeps the invariant (R143). -/
theorem Block.Inv.writeSram {b : Block} {j : Nat} (hb : b.Inv) (hl : b.loaded = true) (hj : j + 2 ≤ b.sram.len) (v : Byte) :
    (b.writeSram j v).Inv := by
  obtain ⟨-, hsized, hbank, ⟨hrom, hram, hsram⟩, hlast⟩ := hb
  refine ⟨fun h => by simp [hl] at h, hsized, hbank, ⟨hrom, hram, Memory.write_wf hsram (by omega)⟩, hlast.1, fun i hi => ?_⟩
  simp only [Block.writeSram_sram, Memory.write_len] at hi ⊢
  rw [Memory.read_write_ne v (by omega)]
  exact hlast.2 i hi

/-- Arming a loaded block keeps the invariant (R144). -/
theorem Block.Inv.arm {b : Block} (hb : b.Inv) (hl : b.loaded = true) : b.arm.Inv := by
  obtain ⟨-, hsized, hbank, hwf, hlast⟩ := hb
  exact ⟨fun h => by simp [hl] at h, hsized, fun hk => ⟨(hbank hk).1, rfl⟩, hwf, hlast⟩

/-- Writing a bank register of a loaded, capable and armed block keeps the invariant (R145). -/
theorem Block.Inv.setBank {b : Block} (hb : b.Inv) (hl : b.loaded = true) (hcap : b.capable = true) (harm : b.armed = true)
    (k : Nat) (v : Byte) : (b.setBank k v).Inv := by
  obtain ⟨-, hsized, -, hwf, hlast⟩ := hb
  exact ⟨fun h => by simp [hl] at h, by simpa [Block.SizedIfLoaded] using hsized, fun _ => by simp [hcap, harm],
    by simpa [Block.ArraysWf] using hwf, by simpa [Block.LastBytesZero] using hlast⟩

/-! ### Where a `poke` stores -/

/-- In a loaded block that meets the invariant a RAM store lies below the last byte (R148). -/
theorem Block.Inv.wrDecode_ram_bound {b : Block} {a : Addr} {j : Nat} (hb : b.Inv) (hl : b.loaded = true)
    (h : wrDecode b a = .ram j) : j + 2 ≤ b.ram.len := by
  obtain ⟨c, hc, -, -, hle, hlen, -⟩ := hb.2.1 hl
  rcases wrDecode_cases b a with ⟨c', hc', h1, h2, h3⟩ | ⟨_, _, _, _, _, _, h3⟩ | ⟨_, _, h3⟩ | ⟨_, _, _, _, h3⟩ | ⟨_, _, _, h3⟩
    <;> rw [h3] at h <;> cases h
  rw [hc] at hc'
  cases hc'
  omega

/-- In a loaded block that meets the invariant a save-RAM store lies below the last byte (R148). -/
theorem Block.Inv.wrDecode_sram_bound {b : Block} {a : Addr} {j : Nat} (hb : b.Inv) (hl : b.loaded = true)
    (h : wrDecode b a = .sram j) : j + 2 ≤ b.sram.len := by
  obtain ⟨c, hc, -, -, -, -, -, hsram, -⟩ := hb.2.1 hl
  rcases wrDecode_cases b a with ⟨_, _, _, _, h3⟩ | ⟨c', hc', _, hp, h1, h2, h3⟩ | ⟨_, _, h3⟩ | ⟨_, _, _, _, h3⟩ | ⟨_, _, _, h3⟩
    <;> rw [h3] at h <;> cases h
  rw [hc] at hc'
  cases hc'
  obtain ⟨hle, hlen, -⟩ := hsram hp
  omega

/-- Only a capable cartridge has bank-select registers (R145). -/
theorem capable_of_wrDecode_banksel {b : Block} {a : Addr} {k : Int} (h : wrDecode b a = .banksel k) : b.capable = true := by
  rcases wrDecode_cases b a with ⟨_, _, _, _, h3⟩ | ⟨_, _, _, _, _, _, h3⟩ | ⟨_, _, h3⟩ | ⟨_, hcap, _⟩ | ⟨_, _, _, h3⟩
  case inr.inr.inr.inl => exact hcap
  all_goals rw [h3] at h; cases h

/-- A `poke` keeps the block's invariant (R140 to R149). -/
theorem poke_keeps_inv {s t : State} {a : Addr} {v : Byte} (hb : s.block.Inv) (h : poke .armOnly a v s = .next t) :
    t.block.Inv := by
  obtain ⟨-, -, ⟨-, ht, -⟩ | ⟨hl, -, heffect⟩⟩ := poke_next h
  · rwa [ht]
  rcases heffect with ⟨j, hw, -, ht⟩ | ⟨j, hw, -, ht⟩ | ⟨-, ht⟩ | ⟨k, hw, -, -, ht⟩ | ⟨k, -, -, ht⟩ | ⟨-, ht⟩ <;> rw [ht]
  · exact hb.writeRam hl (hb.wrDecode_ram_bound hl hw) v
  · exact hb.writeSram hl (hb.wrDecode_sram_bound hl hw) v
  · exact hb.arm hl
  · exact (hb.arm hl).setBank hl (capable_of_wrDecode_banksel hw) rfl _ v
  · exact hb.arm hl
  · exact hb

/-- A `poke` in a block that meets the invariant answers: no store leaves its array (R148). -/
theorem poke_answers {s : State} (hb : s.block.Inv) (a : Addr) (v : Byte) : ∃ t, poke .armOnly a v s = .next t := by
  rcases hl : s.block.loaded with _ | _
  · exact ⟨_, poke_of_not_loaded _ a v hl⟩
  rcases hw : wrDecode s.block a with j | j | _ | k | _
  · have := hb.wrDecode_ram_bound hl hw
    exact ⟨_, (poke_of_ram _ v hl hw).trans (if_pos (by omega))⟩
  · have := hb.wrDecode_sram_bound hl hw
    exact ⟨_, (poke_of_sram _ v hl hw).trans (if_pos (by omega))⟩
  · exact ⟨_, poke_of_arm _ v hl hw⟩
  · rw [poke_of_banksel _ v hl hw, bankSelect]
    split <;> exact ⟨_, rfl⟩
  · exact ⟨_, poke_of_discard _ v hl hw⟩

/-- A `load` with a canonical operand leaves a block that meets the invariant, whatever block it replaces (R172, R246). -/
theorem exec_load_inv {s t : State} (hop : s.operand.Wf) (h : exec .load s = .next t) : t.block.Inv := by
  obtain ⟨-, -, st, w, -, ⟨-, ht⟩ | ⟨-, r, hr, ht, horigin⟩⟩ := execLoad_next h
  · rw [ht]
    exact Block.inv_reset
  rw [ht]
  refine Block.inv_commit _ hr ?_
  rcases horigin with ho | ⟨f, c, hd, ho, -, -, rfl⟩ <;> rw [ho] at hop
  · exact hop
  · exact assemble_wf hop.2

/-! ### The step -/

/-- A step on an issued operation keeps the block's invariant. -/
theorem step_keeps_blockInv {s t : State} {tr : Transaction} {rest : List Transaction} (hs : s.Inv) (h : s.issued = tr :: rest)
    (ht : step s = .next t) : t.block.Inv := by
  obtain ⟨hblock, -, hissued⟩ := hs
  rcases opT_cases tr.word with ho | ho | ho | ho
  · obtain ⟨r, hr⟩ := step_peek h ho
    rw [hr] at ht
    cases ht
    exact hblock
  · rw [step_poke h ho] at ht
    exact poke_keeps_inv (s := s.accept tr rest) hblock ht
  · rw [step_load h ho] at ht
    exact exec_load_inv (s := s.accept tr rest) (hissued tr (by simp [h])) ht
  · rw [step_unload h ho] at ht
    cases ht
    exact Block.inv_reset

/-- A step from a state that meets the invariant answers (R14, R91). -/
theorem step_answers {s : State} (hs : s.Inv) : ∃ t, step s = .next t := by
  rcases h : s.issued with _ | ⟨tr, rest⟩
  · exact ⟨s, step_nil h⟩
  rcases opT_cases tr.word with ho | ho | ho | ho
  · obtain ⟨r, hr⟩ := step_peek h ho
    exact ⟨_, hr⟩
  · rw [step_poke h ho]
    exact poke_answers (s := s.accept tr rest) hs.1 _ _
  · rw [step_load h ho]
    exact exec_load_answers _
  · exact ⟨_, step_unload h ho⟩

/-- Settles O57: the operations keep the block's invariant one by one, and the step only moves a canonical operand from the queue to
the port. -/
theorem everyStepKeepsTheInvariant : Obligations.EveryStepKeepsTheInvariant := by
  intro s t hs ht
  rcases h : s.issued with _ | ⟨tr, rest⟩
  · rw [step_nil h] at ht
    cases ht
    exact hs
  · obtain ⟨hi, hop⟩ := step_issued_operand h ht
    have hwf : ∀ x ∈ tr :: rest, x.operand.Wf := h ▸ hs.2.2
    refine ⟨step_keeps_blockInv hs h ht, ?_, fun x hx => hwf x (List.mem_cons_of_mem _ (hi ▸ hx))⟩
    rw [hop]
    exact hwf tr List.mem_cons_self

/-- Settles O60: by induction on the number of steps, each of which answers and keeps the invariant. -/
theorem everyRunCompletesInvariantly : Obligations.EveryRunCompletesInvariantly := by
  intro n
  induction n with
  | zero => exact fun s hs => ⟨s, rfl, hs⟩
  | succ n ih =>
    intro s hs
    obtain ⟨u, hu⟩ := step_answers hs
    obtain ⟨t, ht, hinv⟩ := ih u (everyStepKeepsTheInvariant s u hs hu)
    exact ⟨t, by rw [core_run_succ, hu]; exact ht, hinv⟩

/-- Settles O55: the reset state, field by field. -/
theorem resetLeavesTheBlockUnloaded : Obligations.ResetLeavesTheBlockUnloaded :=
  ⟨rfl, rfl, rfl, rfl, rfl, rfl, rfl, bank_zeros, rfl, rfl⟩

/-- Settles O56: the reset block meets the block's invariant, the image at the operand port is empty, and nothing is issued. -/
theorem invariantHoldsAtReset : Obligations.InvariantHoldsAtReset :=
  ⟨Block.inv_reset, Memory.empty_wf, fun _ => (nomatch ·)⟩

end Sys2Proof.Machine
end

section
/-! The life of a load: what sets, clears and reads `S.armed` (R27), and what a run without `load` and `unload` keeps (R36 (c), (e)). -/

namespace Sys2Proof.Machine

/-! ### What sets `S.armed` -/

/-- Neither write window claims an address, in the terms of R142 and R143; without a configuration none does. -/
theorem ramClaims_eq_false_iff {b : Block} {a : Addr} :
    b.view.ramClaims a = false ↔ ∀ c, b.cfg = some c → NoRamWrite c a := by
  rcases hc : b.cfg with _ | c
  · simp [View.ramClaims, View.inRamWrite, View.inSramWrite, hc]
  · simp [← noRamWrite_iff hc]

/-- The addresses whose write reaches a mapper register (R144, R145). -/
theorem wrDecode_register_iff {b : Block} {a : Addr} :
    (wrDecode b a = .arm ∨ ∃ k, wrDecode b a = .banksel k) ↔
      b.view.ramClaims a = false ∧
        (a.toNat = 0xA130F1 ∨ b.capable = true ∧ 0xA130F3 ≤ a.toNat ∧ a.toNat ≤ 0xA131FF) := by
  rcases wrDecode_cases b a with ⟨c, hc, h1, h2, hw⟩ | ⟨c, hc, -, hp, h1, h2, hw⟩ | ⟨hn, ha, hw⟩ | ⟨hn, hr1, hr2, hr3, hw⟩ |
    ⟨-, ha, hr, hw⟩
  · simp [hw, View.ramClaims, (inRamWrite_iff hc).2 ⟨h1, h2⟩]
  · simp [hw, View.ramClaims, (inSramWrite_iff hc).2 ⟨hp, h1, h2⟩]
  · simp [hw, hn, ha]
  · simp [hw, hn, hr1, hr2, hr3]
  · simp only [hw, ha, hr]
    simp

/-- A `poke` sets `S.armed` exactly if a loaded block decodes it to a mapper register, and never clears it (R27). -/
theorem poke_armed_iff {s t : State} {a : Addr} {v : Byte} (h : poke .armOnly a v s = .next t) :
    t.block.armed = true ↔ s.block.armed = true ∨
      (s.block.loaded = true ∧ (wrDecode s.block a = .arm ∨ ∃ k, wrDecode s.block a = .banksel k)) := by
  obtain ⟨-, -, ⟨hl, ht, -⟩ | ⟨hl, -, heffect⟩⟩ := poke_next h
  · simp [ht, hl]
  rcases heffect with ⟨j, hw, -, ht⟩ | ⟨j, hw, -, ht⟩ | ⟨hw, ht⟩ | ⟨k, hw, -, -, ht⟩ | ⟨k, hw, -, ht⟩ | ⟨hw, ht⟩ <;>
    simp [ht, hl, hw]

/-- A `load` leaves the mapper disarmed, whether it succeeds or fails (R27, R172). -/
theorem exec_load_not_armed {s t : State} (h : exec .load s = .next t) : t.block.armed = false := by
  obtain ⟨-, -, st, w, -, ⟨-, ht⟩ | ⟨-, r, -, ht, -⟩⟩ := execLoad_next h <;> rw [ht] <;> rfl

/-! ### What reads `S.armed` -/

/-- The block with another value of `S.armed`. -/
def Block.setArmed (b : Block) (x : Bool) : Block := { b with armed := x }

/-- The write path does not read `S.armed` (R27): with another value of it a `poke` leaves the same block but for that flag, and returns
the same. -/
theorem poke_setArmed {s t : State} {a : Addr} {v : Byte} (x : Bool) (h : poke .armOnly a v s = .next t) :
    ∃ u, poke .armOnly a v (s.withBlock (s.block.setArmed x)) = .next u ∧ u.block.setArmed t.block.armed = t.block ∧
      u.response = t.response := by
  rcases hl : s.block.loaded with _ | _
  · have hl' : (s.withBlock (s.block.setArmed x)).block.loaded = false := hl
    rw [poke_of_not_loaded _ a v hl] at h
    cases h
    exact ⟨_, poke_of_not_loaded _ a v hl', rfl, rfl⟩
  have hl' : (s.withBlock (s.block.setArmed x)).block.loaded = true := hl
  have hw' : wrDecode (s.withBlock (s.block.setArmed x)).block a = wrDecode s.block a := rfl
  rcases hw : wrDecode s.block a with j | j | _ | k | _ <;> rw [hw] at hw'
  · rw [poke_of_ram _ v hl hw, storeRam] at h
    split at h
    · rename_i hj
      cases h
      exact ⟨_, (poke_of_ram _ v hl' hw').trans (if_pos hj), rfl, rfl⟩
    · cases h
  · rw [poke_of_sram _ v hl hw, storeSram] at h
    split at h
    · rename_i hj
      cases h
      exact ⟨_, (poke_of_sram _ v hl' hw').trans (if_pos hj), rfl, rfl⟩
    · cases h
  · rw [poke_of_arm _ v hl hw] at h
    exact ⟨t, (poke_of_arm _ v hl' hw').trans h, rfl, rfl⟩
  · rw [poke_of_banksel _ v hl hw] at h
    exact ⟨t, (poke_of_banksel _ v hl' hw').trans h, rfl, rfl⟩
  · rw [poke_of_discard _ v hl hw] at h
    cases h
    exact ⟨_, poke_of_discard _ v hl' hw', rfl, rfl⟩

/-- Settles O47: a `peek` only responds, a `poke` sets the flag as `poke_armed_iff` says, `load` and `unload` replace the block by one
that is not armed; and neither the write path nor `load` nor `unload` reads the flag. -/
theorem armedIsSetAndClearedAsStated : Obligations.ArmedIsSetAndClearedAsStated := by
  intro s t tr rest h ht
  refine ⟨fun ho => ?_, fun ho => ?_, fun ho => ?_, fun ho x => ?_⟩
  · obtain ⟨r, hr⟩ := step_peek h ho
    rw [hr] at ht
    cases ht
    rfl
  · rw [step_poke h ho] at ht
    rw [poke_armed_iff ht, State.accept_block, wrDecode_register_iff, ramClaims_eq_false_iff, BitVec.toNat_eq]
    rfl
  · rcases ho with ho | ho
    · rw [step_load h ho] at ht
      exact exec_load_not_armed ht
    · rw [step_unload h ho] at ht
      cases ht
      rfl
  · have h' : (s.withBlock (s.block.setArmed x)).issued = tr :: rest := h
    show ∃ u, step (s.withBlock (s.block.setArmed x)) = .next u ∧ u.block.setArmed t.block.armed = t.block ∧
      u.response = t.response
    rcases opT_cases tr.word with hw | hw | hw | hw
    · exact absurd hw ho
    · rw [step_poke h hw] at ht
      rw [step_poke h' hw]
      exact poke_setArmed x ht
    · rw [step_load h hw] at ht
      exact ⟨t, (step_load h' hw).trans ((exec_load_withBlock (s.accept tr rest) _).trans ht), rfl, rfl⟩
    · rw [step_unload h hw] at ht
      cases ht
      exact ⟨_, step_unload h' hw, rfl, rfl⟩

/-! ### What a run without `load` and `unload` keeps -/

/-- `d` is a later block of the same load as `b`: nothing that `load` committed has changed but the RAMs and the mapper's registers, and
the mapper has not been disarmed (R36 (c), (e)). -/
structure Block.KeepsLoad (b d : Block) : Prop where
  armed : b.armed = true → d.armed = true
  rom : d.rom = b.rom
  cfg : d.cfg = b.cfg
  capable : d.capable = b.capable
  loaded : d.loaded = b.loaded

theorem Block.KeepsLoad.refl (b : Block) : b.KeepsLoad b := ⟨id, rfl, rfl, rfl, rfl⟩

theorem Block.KeepsLoad.trans {b d e : Block} (h : b.KeepsLoad d) (h' : d.KeepsLoad e) : b.KeepsLoad e :=
  ⟨h'.armed ∘ h.armed, h'.rom.trans h.rom, h'.cfg.trans h.cfg, h'.capable.trans h.capable, h'.loaded.trans h.loaded⟩

theorem Block.KeepsLoad.arm (b : Block) : b.KeepsLoad b.arm := ⟨fun _ => rfl, rfl, rfl, rfl, rfl⟩

theorem Block.KeepsLoad.setBank (b : Block) (k : Nat) (v : Byte) : b.KeepsLoad (b.setBank k v) := by
  constructor <;> simp

/-- A `poke` keeps the load and the arming (R140, R149). -/
theorem poke_keepsLoad {s t : State} {a : Addr} {v : Byte} (h : poke .armOnly a v s = .next t) :
    s.block.KeepsLoad t.block := by
  obtain ⟨-, -, ⟨-, ht, -⟩ | ⟨-, -, heffect⟩⟩ := poke_next h
  · rw [ht]
    exact .refl _
  rcases heffect with ⟨j, -, -, ht⟩ | ⟨j, -, -, ht⟩ | ⟨-, ht⟩ | ⟨k, -, -, -, ht⟩ | ⟨k, -, -, ht⟩ | ⟨-, ht⟩ <;> rw [ht]
  · exact ⟨id, rfl, rfl, rfl, rfl⟩
  · exact ⟨id, rfl, rfl, rfl, rfl⟩
  · exact .arm _
  · exact (Block.KeepsLoad.arm _).trans (.setBank _ _ _)
  · exact .arm _
  · exact .refl _

/-- A step on an issued `peek` or `poke` keeps the load and the arming. -/
theorem step_keepsLoad {s t : State} {tr : Transaction} {rest : List Transaction} (h : s.issued = tr :: rest)
    (hop : (opT tr.word).toNat < 2) (ht : step s = .next t) : s.block.KeepsLoad t.block := by
  rcases opT_cases tr.word with ho | ho | ho | ho
  · obtain ⟨r, hr⟩ := step_peek h ho
    rw [hr] at ht
    cases ht
    exact .refl _
  · rw [step_poke h ho] at ht
    exact poke_keepsLoad (s := s.accept tr rest) ht
  all_goals simp [ho] at hop

/-- A run of any length over `peek` and `poke` operations keeps the load and the arming. -/
theorem run_keepsLoad (n : Nat) {s t : State} (hops : ∀ tr ∈ s.issued, (opT tr.word).toNat < 2)
    (ht : Sys2Proof.core.run n s = .next t) : s.block.KeepsLoad t.block := by
  induction n generalizing s with
  | zero =>
    cases ht
    exact .refl _
  | succ n ih =>
    rw [core_run_succ] at ht
    rcases h : s.issued with _ | ⟨tr, rest⟩
    · rw [step_nil h] at ht
      exact ih hops ht
    rw [h] at hops
    rcases hu : step s with u | _ | _ <;> rw [hu] at ht
    case next =>
      obtain ⟨hi, -⟩ := step_issued_operand h hu
      have hrest : ∀ x ∈ u.issued, (opT x.word).toNat < 2 := fun x hx => hops x (List.mem_cons_of_mem _ (hi ▸ hx))
      exact (step_keepsLoad h (hops tr List.mem_cons_self) hu).trans (ih hrest ht)
    all_goals cases ht

/-- Settles O59: the run keeps the load and the arming, field by field. -/
theorem runWithoutLifecycleKeepsLoadAndArming : Obligations.RunWithoutLifecycleKeepsLoadAndArming := by
  intro n s t hops ht
  obtain ⟨harmed, hrom, hcfg, hcapable, hloaded⟩ := run_keepsLoad n hops ht
  exact ⟨harmed, hrom, hcfg, hcapable, hloaded⟩

end Sys2Proof.Machine
end

section
/-! Memory seen through the bus: every row of a `peek` is the algorithm of R110, which writes nothing (R59); a stored byte is what a
read that resolves to its place returns, and no read that resolves to the image sees it (R55). -/

namespace Sys2Proof.Machine

/-! ### The algorithm of `peek`, one equation per target (R110) -/

theorem peek_of_not_loaded {s : State} (pol : OorPolicy) (a : Addr) (hl : s.block.loaded = false) :
    peek pol a s = raiseStatus .notLoaded s := by simp [peek, hl]

theorem peek_of_rom {s : State} {a : Addr} {i : Nat} (pol : OorPolicy) (hl : s.block.loaded = true)
    (hd : rdDecode s.block a = .rom i) : peek pol a s = fetch pol s.block.rom i s := by simp [peek, hl, hd]

theorem peek_of_ram {s : State} {a : Addr} {i : Nat} (pol : OorPolicy) (hl : s.block.loaded = true)
    (hd : rdDecode s.block a = .ram i) : peek pol a s = fetch pol s.block.ram i s := by simp [peek, hl, hd]

theorem peek_of_sram {s : State} {a : Addr} {i : Nat} (pol : OorPolicy) (hl : s.block.loaded = true)
    (hd : rdDecode s.block a = .sram i) : peek pol a s = fetch pol s.block.sram i s := by simp [peek, hl, hd]

theorem peek_of_unmapped {s : State} {a : Addr} (pol : OorPolicy) (hl : s.block.loaded = true)
    (hd : rdDecode s.block a = .unmapped) : peek pol a s = raiseStatus .busError s := by simp [peek, hl, hd]

/-! ### The read decode by the conditions of the rows (R84) -/

/-- Where no ROM row claims the address, the RAMs are asked for it in turn: `rdDecode_noRom` in the decoder's terms, in which a block
need not have a configuration. -/
theorem rdDecode_of_not_romClaims {b : Block} {a : Addr} (h : b.view.romClaims a = false) :
    rdDecode b a
      = if b.view.inRamRead a then .ram (a.toNat - b.ramStart)
        else if b.view.inSramRead a then .sram (a.toNat - b.sramStart) else .unmapped := by
  simp only [View.romClaims, Block.view_banked, Config.winTop, Bool.or_eq_false_iff] at h
  obtain ⟨hflat, hwin⟩ := h
  simp only [Bool.and_eq_false_iff, decide_eq_false_iff_not] at hwin
  have hrange : ∀ lo hi, hi ≤ 0x3FFFFF → ¬ (b.banked && inRange lo hi a) = true := by
    intro lo hi hhi hr
    simp only [inRange, Bool.and_eq_true, decide_eq_true_eq] at hr
    rcases hwin with hb | ha
    · simp [hb] at hr
    · omega
  rw [rdDecode, if_neg (ne_true_of_eq_false hflat), if_neg (hrange _ _ (by decide)), if_neg (hrange _ _ (by decide))]

/-- A banked-window row runs `peek`: the algorithm computes the row's window number. -/
theorem windowRead_eq_peek {s : State} {a : Addr} {n : Nat} (pol : OorPolicy) (hn : n < 7)
    (h : (s.view.loaded && s.view.banked && inWindow n a) = true) : windowRead pol n a s = peek pol a s := by
  simp only [Bool.and_eq_true, State.view_eq, Block.view_loaded, Block.view_banked] at h
  obtain ⟨⟨hl, hb⟩, hw⟩ := h
  exact (peek_of_rom pol hl (rdDecode_window hb hw hn)).symm

/-- Each of the thirteen rows of a `peek` is the algorithm of R110, whether or not the row's condition holds. -/
theorem exec_readRows_eq_peek {i : Instr} {a : Addr} (hi : i ∈ readRows a) (s : State) :
    exec i s = peek Config.oorPolicy a s := by
  simp only [readRows, List.mem_cons, List.not_mem_nil, or_false] at hi
  rcases hi with rfl | rfl | rfl | rfl | rfl | rfl | rfl | rfl | rfl | rfl | rfl | rfl | rfl <;>
    refine ite_eq_right_iff.2 fun h => ?_
  · -- RD.NOTLOADED
    exact (peek_of_not_loaded _ a (by simpa [rowHolds] using h)).symm
  · -- RD.FLAT
    simp only [rowHolds, State.view_eq, Block.view_loaded, Bool.and_eq_true] at h
    obtain ⟨⟨hl, hb⟩, hf⟩ := h
    exact (peek_of_rom _ hl (if_pos (by rw [hf, ← Block.view_banked, hb]; rfl))).symm
  · -- RD.FIXED
    simp only [rowHolds, State.view_eq, Block.view_loaded, Block.view_banked, Bool.and_eq_true, inRange, decide_eq_true_eq,
      Config.fixedHi] at h
    obtain ⟨⟨hl, hb⟩, -, ha⟩ := h
    exact (peek_of_rom _ hl (rdDecode_fixed hb ha)).symm
  · exact windowRead_eq_peek _ (by decide) h
  · exact windowRead_eq_peek _ (by decide) h
  · exact windowRead_eq_peek _ (by decide) h
  · exact windowRead_eq_peek _ (by decide) h
  · exact windowRead_eq_peek _ (by decide) h
  · exact windowRead_eq_peek _ (by decide) h
  · exact windowRead_eq_peek _ (by decide) h
  · -- RD.RAM
    simp only [rowHolds, State.view_eq, Block.view_loaded, Bool.and_eq_true, Bool.not_eq_true'] at h
    obtain ⟨⟨hl, hr⟩, hn⟩ := h
    exact (peek_of_ram _ hl (by rw [rdDecode_of_not_romClaims hn, if_pos hr])).symm
  · -- RD.SRAM
    simp only [rowHolds, State.view_eq, Block.view_loaded, Bool.and_eq_true, Bool.not_eq_true', Bool.or_eq_false_iff] at h
    obtain ⟨⟨hl, hs⟩, hn, hr⟩ := h
    exact (peek_of_sram _ hl (by rw [rdDecode_of_not_romClaims hn, if_neg (by simp [hr]), if_pos hs])).symm
  · -- RD.UNMAPPED
    simp only [rowHolds, State.view_eq, Block.view_loaded, Bool.and_eq_true, Bool.not_eq_true', Bool.or_eq_false_iff] at h
    obtain ⟨hl, ⟨hn, hr⟩, hs⟩ := h
    exact (peek_of_unmapped _ hl (by rw [rdDecode_of_not_romClaims hn, if_neg (by simp [hr]), if_neg (by simp [hs])])).symm

/-- Settles O19: every row is the algorithm of R110, which only responds. -/
theorem readRowsChangeNoState : Obligations.ReadRowsChangeNoState := by
  intro s t a i hi ht
  obtain ⟨r, hr, hresponse⟩ := peek_responds a s
  rw [exec_readRows_eq_peek hi] at ht
  cases hr.symm.trans ht
  exact ⟨rfl, rfl, rfl, r, rfl, hresponse⟩

/-! ### A store, and the read of its place -/

/-- A RAM store that answers has stored its byte, inside the array, and nothing else in the block (R142). -/
theorem storeRam_next {s t : State} {j : Nat} {v : Byte} (h : storeRam j v s = .next t) :
    j < s.block.ram.len ∧ t.block = s.block.writeRam j v := by
  rw [storeRam] at h
  split at h <;> cases h
  exact ⟨‹_›, rfl⟩

/-- A save-RAM store that answers has stored its byte, inside the array, and nothing else in the block (R143). -/
theorem storeSram_next {s t : State} {j : Nat} {v : Byte} (h : storeSram j v s = .next t) :
    j < s.block.sram.len ∧ t.block = s.block.writeSram j v := by
  rw [storeSram] at h
  split at h <;> cases h
  exact ⟨‹_›, rfl⟩

/-- A `poke` in the RAM write window that answers has stored its byte at the address's index (R142). -/
theorem poke_ram_next {s t : State} {c : BusConfig} {a : Addr} {v : Byte} {pol : SlotM1Policy} (hl : s.block.loaded = true)
    (hc : s.block.cfg = some c) (h1 : c.ramStart.toNat ≤ a.toNat) (h2 : a.toNat + 2 ≤ c.ramEnd.toNat)
    (h : poke pol a v s = .next t) :
    a.toNat - c.ramStart.toNat < s.block.ram.len ∧ t.block = s.block.writeRam (a.toNat - c.ramStart.toNat) v :=
  storeRam_next ((poke_of_ram pol v hl (wrDecode_ram hc h1 h2)).symm.trans h)

/-- The read decode of the RAM window (R115). -/
theorem rdDecode_ram {b : Block} {c : BusConfig} {a : Addr} (hc : b.cfg = some c) (hn : b.NoRomRule c a)
    (h1 : c.ramStart.toNat ≤ a.toNat) (h2 : a.toNat ≤ c.ramEnd.toNat) : rdDecode b a = .ram (a.toNat - c.ramStart.toNat) := by
  rw [rdDecode_noRom hc hn, if_pos (by simp [View.inRamRead, hc, h1, h2])]
  simp [Block.ramStart, hc]

/-- The read decode of the save-RAM window, behind the RAM window (R116). -/
theorem rdDecode_sram {b : Block} {c : BusConfig} {a : Addr} (hc : b.cfg = some c) (hn : b.NoRomRule c a)
    (h0 : ¬ (c.ramStart.toNat ≤ a.toNat ∧ a.toNat ≤ c.ramEnd.toNat)) (hp : c.sramPresent = true)
    (h1 : c.sramStart.toNat ≤ a.toNat) (h2 : a.toNat ≤ c.sramEnd.toNat) :
    rdDecode b a = .sram (a.toNat - c.sramStart.toNat) := by
  rw [rdDecode_noRom hc hn, if_neg (by simpa [View.inRamRead, hc] using h0), if_pos (by simp [View.inSramRead, hc, hp, h1, h2])]
  simp [Block.sramStart, hc]

/-- Settles O32: the read decode of a write-window address is the write decode's index, the decode does not look at the arrays, and a
canonical array returns the byte stored. -/
theorem writtenByteIsReadBack : Obligations.WrittenByteIsReadBack := by
  rintro s t c a v ⟨-, -, -, ⟨-, hram, hsram⟩, -⟩ hl hc hn
  refine ⟨fun h1 h2 ht => ?_, fun h0 hp h1 h2 ht => ?_⟩
  · rw [exec_writeRows_eq_poke (a := a) (v := v) (by simp [writeRows])] at ht
    obtain ⟨hj, hblock⟩ := poke_ram_next hl hc h1 h2 ht
    have hd : rdDecode t.block a = .ram (a.toNat - c.ramStart.toNat) := hblock ▸ rdDecode_ram hc hn h1 (by omega)
    rw [exec_readRows_eq_peek (a := a) (by simp [readRows]), peek_of_ram _ (hblock ▸ hl) hd]
    exact fetch_of_read (hblock ▸ Memory.read_write_self v hram hj)
  · rw [exec_writeRows_eq_poke (a := a) (v := v) (by simp [writeRows]),
      poke_of_sram _ v hl (wrDecode_sram hc (by omega) hp h1 h2)] at ht
    obtain ⟨hj, hblock⟩ := storeSram_next ht
    have hd : rdDecode t.block a = .sram (a.toNat - c.sramStart.toNat) := hblock ▸ rdDecode_sram hc hn h0 hp h1 (by omega)
    rw [exec_readRows_eq_peek (a := a) (by simp [readRows]), peek_of_sram _ (hblock ▸ hl) hd]
    exact fetch_of_read (hblock ▸ Memory.read_write_self v hsram hj)

/-- Settles O33: the address decodes to an index of the image before and after the write, which leaves the image. -/
theorem ramUnderRomIsWriteOnly : Obligations.RamUnderRomIsWriteOnly := by
  intro s t c a v i hl hc hrom h1 h2 ht hi o ho
  rw [exec_writeRows_eq_poke (a := a) (v := v) (by simp [writeRows])] at ht
  rw [exec_readRows_eq_peek hi] at ho ⊢
  obtain ⟨-, hblock⟩ := poke_ram_next hl hc h1 h2 ht
  obtain ⟨n, hn⟩ := rdDecode_rom hc hrom
  exact peek_of_same_rom hn (hblock ▸ hn) (by rw [hblock]; rfl) (by rw [hblock]; rfl) ho

/-- Settles O7: the step's own equation, with the view the decoder reads written out. -/
theorem stepRunsTheDecodedOperation : Obligations.StepRunsTheDecodedOperation := by
  rintro s t rest _ h rfl
  exact step_cons h

end Sys2Proof.Machine
end

section
/-! The rows and their words (R84 to R87): in every view exactly one row of a word is in force, and the decoder answers that row. -/

namespace Sys2Proof.Machine

/-! ### The word of a row -/

/-- The rows of a `peek`, the seven banked windows as one family. -/
theorem mem_readRows_iff {i : Instr} {a : Addr} :
    i ∈ readRows a ↔ i = .rdNotLoaded a ∨ i = .rdFlat a ∨ i = .rdFixed a ∨ (∃ n, i = Instr.rdWin n a) ∨ i = .rdRam a ∨
      i = .rdSram a ∨ i = .rdUnmapped a := by
  simp [readRows, Fin.exists_fin_succ, Instr.rdWin, or_assoc]

/-- Every row is a row of one of the four operations (R80). -/
theorem row_cases (i : Instr) :
    (∃ a, i ∈ readRows a) ∨ (∃ a d, i ∈ writeRows a d) ∨ i = .load ∨ i = .unload := by
  cases i <;> simp [readRows, writeRows]

/-- The word of a `peek` row holds its address (R81). -/
theorem encode_of_mem_readRows {i : Instr} {a : Addr} (hi : i ∈ readRows a) : encode i = packT 0 a 0 := by
  obtain rfl | rfl | rfl | ⟨n, rfl⟩ | rfl | rfl | rfl := mem_readRows_iff.1 hi
  case inr.inr.inr.inl => fin_cases n <;> rfl
  all_goals rfl

/-- The word of a `poke` row holds its address and its data byte (R81). -/
theorem encode_of_mem_writeRows {i : Instr} {a : Addr} {d : Byte} (hi : i ∈ writeRows a d) : encode i = packT 1 a d := by
  simp only [writeRows, List.mem_cons, List.not_mem_nil, or_false] at hi
  rcases hi with rfl | rfl | rfl | rfl | rfl | rfl | rfl | rfl | rfl <;> rfl

/-! ### The row in force is decoded -/

/-- The condition of the banked-window rows (R84 order 3). -/
theorem rowHolds_rdWin (v : View) (n : Fin 7) (a : Addr) :
    rowHolds v (Instr.rdWin n a) = (v.loaded && v.banked && inWindow n a) := by
  fin_cases n <;> rfl

/-- The `peek` row in force is the one the priority order selects (R84, R86). -/
theorem readRow_eq_of_rowHolds {v : View} {i : Instr} {a : Addr} (hi : i ∈ readRows a) (h : rowHolds v i = true) :
    readRow v a = i := by
  obtain rfl | rfl | rfl | ⟨n, rfl⟩ | rfl | rfl | rfl := mem_readRows_iff.1 hi
  · -- RD.NOTLOADED
    exact if_pos h
  · -- RD.FLAT
    simp only [rowHolds, Bool.and_eq_true, Bool.not_eq_true'] at h
    obtain ⟨⟨hl, hb⟩, hf⟩ := h
    simp [readRow, hl, hb, hf]
  · -- RD.FIXED
    simp only [rowHolds, inRange, Bool.and_eq_true, decide_eq_true_eq] at h
    obtain ⟨⟨hl, hb⟩, -, ha⟩ := h
    exact readRow_fixed hl hb ha
  · -- RD.WIN0 to RD.WIN6
    simp only [rowHolds_rdWin, Bool.and_eq_true] at h
    obtain ⟨⟨hl, hb⟩, hw⟩ := h
    exact readRow_window n hl hb hw
  · -- RD.RAM
    simp only [rowHolds, Bool.and_eq_true, Bool.not_eq_true'] at h
    obtain ⟨⟨hl, hr⟩, hn⟩ := h
    rw [readRow_noRom hl hn, if_pos hr]
  · -- RD.SRAM
    simp only [rowHolds, Bool.and_eq_true, Bool.not_eq_true', Bool.or_eq_false_iff] at h
    obtain ⟨⟨hl, hs⟩, hn, hr⟩ := h
    rw [readRow_noRom hl hn, if_neg (by simp [hr]), if_pos hs]
  · -- RD.UNMAPPED
    simp only [rowHolds, Bool.and_eq_true, Bool.not_eq_true', Bool.or_eq_false_iff] at h
    obtain ⟨hl, ⟨hn, hr⟩, hs⟩ := h
    rw [readRow_noRom hl hn, if_neg (by simp [hr]), if_neg (by simp [hs])]

/-- The condition that the rows of `WR.BANKSEL` share, each with the range `lo..hi` of its pattern, in the terms of R85. -/
theorem banksel_holds_iff {v : View} {lo hi : Nat} {a : Addr} :
    (v.loaded && v.capable && inRange lo hi a && !v.ramClaims a) = true ↔
      v.loaded = true ∧ v.capable = true ∧ (lo ≤ a.toNat ∧ a.toNat ≤ hi) ∧ v.ramClaims a = false := by
  simp [and_assoc]

/-- The condition of `WR.DISCARD`, in the terms of R146. -/
theorem discard_holds_iff {v : View} {a : Addr} {d : Byte} :
    rowHolds v (.wrDiscard a d) = true ↔
      v.loaded = true ∧ v.ramClaims a = false ∧ a.toNat ≠ 0xA130F1 ∧
        ¬ (v.capable = true ∧ 0xA130F3 ≤ a.toNat ∧ a.toNat ≤ 0xA131FF) := by
  have harm : inRange 0xA130F1 0xA130F1 a = false ↔ a.toNat ≠ 0xA130F1 := by
    simp only [inRange, Bool.and_eq_false_iff, decide_eq_false_iff_not]
    omega
  have hbank : (v.capable && inRange 0xA130F3 0xA131FF a) = false ↔
      ¬ (v.capable = true ∧ 0xA130F3 ≤ a.toNat ∧ a.toNat ≤ 0xA131FF) := by
    rw [← Bool.not_eq_true]
    simp only [inRange, Bool.and_eq_true, decide_eq_true_eq]
  simp only [rowHolds, Bool.and_eq_true, Bool.not_eq_true', Bool.or_eq_false_iff, harm, hbank, and_assoc]

/-- The `poke` row in force is the one the priority order selects (R85, R86). -/
theorem writeRow_eq_of_rowHolds {v : View} {i : Instr} {a : Addr} {d : Byte} (hi : i ∈ writeRows a d)
    (h : rowHolds v i = true) : writeRow v a d = i := by
  simp only [writeRows, List.mem_cons, List.not_mem_nil, or_false] at hi
  rcases hi with rfl | rfl | rfl | rfl | rfl | rfl | rfl | rfl | rfl
  · -- WR.NOTLOADED
    exact if_pos h
  · -- WR.RAM
    simp only [rowHolds, Bool.and_eq_true] at h
    simp [writeRow, h]
  · -- WR.SRAM
    simp only [rowHolds, Bool.and_eq_true, Bool.not_eq_true'] at h
    simp [writeRow, h]
  · -- WR.ARM
    simp only [rowHolds, inRange, Config.regArm, Bool.and_eq_true, decide_eq_true_eq, Bool.not_eq_true'] at h
    obtain ⟨⟨hl, ha⟩, hn⟩ := h
    rw [writeRow_noRam hl hn, if_pos (by omega)]
  · -- WR.BANKSEL, 0xA130F3
    obtain ⟨hl, hcap, ha, hn⟩ := (banksel_holds_iff (lo := 0xA130F3) (hi := 0xA130F3)).1 h
    rw [writeRow_noRam hl hn, if_neg (by omega), if_pos ⟨hcap, by omega⟩]
  · -- WR.BANKSEL, 0xA130F4..0xA130F7
    obtain ⟨hl, hcap, ha, hn⟩ := banksel_holds_iff.1 h
    rw [writeRow_noRam hl hn, if_neg (by omega), if_neg (by omega), if_pos ⟨hcap, ha⟩]
  · -- WR.BANKSEL, 0xA130F8..0xA130FF
    obtain ⟨hl, hcap, ha, hn⟩ := banksel_holds_iff.1 h
    rw [writeRow_noRam hl hn, if_neg (by omega), if_neg (by omega), if_neg (by omega), if_pos ⟨hcap, ha⟩]
  · -- WR.BANKSEL, 0xA13100..0xA131FF
    obtain ⟨hl, hcap, ha, hn⟩ := banksel_holds_iff.1 h
    rw [writeRow_noRam hl hn, if_neg (by omega), if_neg (by omega), if_neg (by omega), if_neg (by omega), if_pos ⟨hcap, ha⟩]
  · -- WR.DISCARD
    obtain ⟨hl, hn, harm, hbank⟩ := discard_holds_iff.1 h
    have hpattern : ∀ {p : Prop}, (p → 0xA130F3 ≤ a.toNat ∧ a.toNat ≤ 0xA131FF) → ¬ (v.capable = true ∧ p) :=
      fun hp ⟨hcap, ha⟩ => hbank ⟨hcap, hp ha⟩
    rw [writeRow_noRam hl hn, if_neg harm, if_neg (hpattern (by omega)), if_neg (hpattern (by omega)),
      if_neg (hpattern (by omega)), if_neg (hpattern (by omega))]

/-- Settles O1: a row's word is a packed word of its operation, on which the decoder runs the priority order; the row in force is the
one that order selects. -/
theorem rowInForceDecodesFromItsWord : Obligations.RowInForceDecodesFromItsWord := by
  intro v i _ h
  obtain ⟨a, hi⟩ | ⟨a, d, hi⟩ | rfl | rfl := row_cases i
  · rw [encode_of_mem_readRows hi, decodeIn_packT_read, readRow_eq_of_rowHolds hi h]
  · rw [encode_of_mem_writeRows hi, decodeIn_packT_write, writeRow_eq_of_rowHolds hi h]
  · rfl
  · rfl

/-! ### The decoded row is in force -/

/-- The condition of a row contains the address range of its pattern. -/
theorem wellFormed_of_rowHolds {v : View} {i : Instr} (h : rowHolds v i = true) : i.wellFormed = true := by
  cases i <;> simp_all [rowHolds, Instr.wellFormed]

/-- The `peek` row that the priority order selects is in force. -/
theorem rowHolds_readRow (v : View) (a : Addr) : rowHolds v (readRow v a) = true := by
  rcases hl : v.loaded with _ | _
  · simp [readRow, rowHolds, hl]
  rcases hrom : v.romClaims a with _ | _
  · rw [readRow_noRom hl hrom]
    split_ifs with hr hs <;> simp_all [rowHolds]
  rcases hb : v.banked with _ | _
  · have hf : v.inFlat a = true := by simpa [View.romClaims, hb] using hrom
    simp [readRow, rowHolds, hl, hb, hf]
  have htop : a.toNat ≤ 0x3FFFFF := by simpa [View.romClaims, hb] using hrom
  by_cases hfix : a.toNat ≤ 0x7FFFF
  · rw [readRow_fixed hl hb hfix]
    simp [rowHolds, hl, hb, hfix]
  · obtain ⟨hw, hn⟩ := inWindow_of_range (Nat.lt_of_not_le hfix) htop
    rw [readRow_window ⟨_, hn⟩ hl hb hw, rowHolds_rdWin, hl, hb, hw]
    rfl

/-- The `poke` row that the priority order selects is in force. -/
theorem rowHolds_writeRow (v : View) (a : Addr) (d : Byte) : rowHolds v (writeRow v a d) = true := by
  rcases hl : v.loaded with _ | _
  · simp [writeRow, rowHolds, hl]
  rcases hr : v.inRamWrite a with _ | _
  case true => simp [writeRow, rowHolds, hl, hr]
  rcases hs : v.inSramWrite a with _ | _
  case true => simp [writeRow, rowHolds, hl, hr, hs]
  have hn : v.ramClaims a = false := by simp [View.ramClaims, hr, hs]
  rw [writeRow_noRam hl hn]
  split_ifs with harm hF3 hF4 hF8 h131
  · simp [rowHolds, hl, hn, harm]
  · exact banksel_holds_iff.2 ⟨hl, hF3.1, ⟨hF3.2.ge, hF3.2.le⟩, hn⟩
  · exact banksel_holds_iff.2 ⟨hl, hF4.1, hF4.2, hn⟩
  · exact banksel_holds_iff.2 ⟨hl, hF8.1, hF8.2, hn⟩
  · exact banksel_holds_iff.2 ⟨hl, h131.1, h131.2, hn⟩
  · refine discard_holds_iff.2 ⟨hl, hn, harm, fun ⟨hcap, ha⟩ => ?_⟩
    simp only [hcap, true_and] at hF3 hF4 hF8 h131
    omega

/-- The decoded row of any word is in force (R80, R84 to R86). -/
theorem rowHolds_decodeIn (v : View) (w : TWord) : rowHolds v (decodeIn v w) = true := by
  rcases opT_cases w with ho | ho | ho | ho <;> simp only [decodeIn, ho]
  · exact rowHolds_readRow _ _
  · exact rowHolds_writeRow _ _ _
  · rfl
  · rfl

/-- The word of the decoded row keeps the operation, and the fields that the operation uses (R81, R91). -/
theorem encode_decodeIn (v : View) (w : TWord) :
    encode (decodeIn v w) = packT (opT w) (if (opT w).toNat < 2 then addrT w else 0) (if opT w = 1#2 then dataT w else 0) := by
  rcases opT_cases w with ho | ho | ho | ho <;> simp only [decodeIn, ho]
  · exact encode_of_mem_readRows (readRow_mem _ _)
  · exact encode_of_mem_writeRows (writeRow_mem _ _ _)
  · rfl
  · rfl

/-- Settles O4: the decoded row is in force and its word keeps the fields of its operation; any other row in force with that word would
be decoded from it too. -/
theorem everyWordIsInExactlyOneRow : Obligations.EveryWordIsInExactlyOneRow := by
  intro v w
  have hdec := rowHolds_decodeIn v w
  refine ⟨wellFormed_of_rowHolds hdec, hdec, ?_, fun ho => ?_, fun ho => ?_, fun j hj hold hword => ?_⟩
  · rw [encode_decodeIn, opT_packT]
  · rw [encode_decodeIn, addrT_packT, if_pos ho]
  · rw [encode_decodeIn, dataT_packT, if_pos ho]
  · calc j = decodeIn v (encode j) := (rowInForceDecodesFromItsWord v j hj hold).symm
      _ = decodeIn v (encode (decodeIn v w)) := by rw [hword]
      _ = decodeIn v w := rowInForceDecodesFromItsWord v _ (wellFormed_of_rowHolds hdec) hdec

/-! ### Bare words (log 1) -/

/-- A bare 42-bit word is read in the view of the pattern rows, at any width that holds it. -/
theorem decodeTableWord_toNat {n : Nat} (hn : 42 ≤ n) (w : TWord) :
    decodeTableWord n w.toNat = some (decodeIn View.patternOnly w) := by
  have hw := w.isLt
  have hmod : w.toNat % 2 ^ n = w.toNat := Nat.mod_eq_of_lt (hw.trans_le (Nat.pow_le_pow_right (by decide) hn))
  have hword : BitVec.ofNat 42 (w.toNat % 2 ^ 48) = w := by
    rw [Nat.mod_eq_of_lt (by omega), BitVec.ofNat_toNat, BitVec.setWidth_eq]
  have hbytes := decodeBytes_bytesOf View.patternOnly w.toNat []
  rw [List.append_nil, if_pos (by omega), hword] at hbytes
  rw [decodeTableWord, hmod, hbytes]

/-- Settles O2: in the view of a bare word a row told by its bits is in force at every address of its pattern. -/
theorem patternRowsDecodeFromBareWord : Obligations.PatternRowsDecodeFromBareWord := by
  intro n a v i hn hi hwf
  have hold : rowHolds View.patternOnly i = i.wellFormed := by
    obtain ⟨hl, hcap, hb, hclaims⟩ : View.patternOnly.loaded = true ∧ View.patternOnly.capable = true ∧
        View.patternOnly.banked = true ∧ View.patternOnly.ramClaims a = false := ⟨rfl, rfl, rfl, rfl⟩
    simp only [List.mem_cons, List.not_mem_nil, or_false] at hi
    rcases hi with rfl | rfl | rfl | rfl | rfl | rfl | rfl | rfl | rfl | rfl | rfl | rfl | rfl | rfl | rfl <;>
      simp only [rowHolds, Instr.wellFormed, hl, hcap, hb, hclaims, Bool.true_and, Bool.and_true, Bool.not_false]
  rw [decodeTableWord_toNat hn, rowInForceDecodesFromItsWord _ i hwf (hold.trans hwf)]

/-- Settles O3: the words and the view of `CFG_B` are closed terms, on which the decoder runs. -/
theorem printedWordsDecode : Obligations.PrintedWordsDecode := by
  refine ⟨by decide, by decide, by decide, by decide, by decide, by decide, by decide, by decide, by decide, by decide, ?_⟩
  rintro ⟨loaded, capable, armed, cfg⟩ rfl rfl rfl rfl
  decide

end Sys2Proof.Machine
end

section
/-! The slot of a bank-select write (R88, R90), the index of a banked read (R83), and that a step always answers (R91, R148). -/

namespace Sys2Proof.Machine

/-! ### The slot number -/

/-- On a slot that names no bank register the default policy only arms (R90, D6). -/
theorem bankSelect_armOnly_of_not_inRange {k : Int} (v : Byte) (s : State) (h : ¬ (0 ≤ k ∧ k ≤ 6)) :
    bankSelect .armOnly k v s = finish s.block.arm s :=
  if_neg h

/-- Settles O26: the pattern rows run `poke`, which reaches the bank-select rule with a slot that names no register. -/
theorem slotMinusOneOnlyArms : Obligations.SlotMinusOneOnlyArms := by
  intro s c a v i hi hl hcap hc hn h1 h2 hslot
  have hrange : ¬ (0 ≤ bankSlot a ∧ bankSlot a ≤ 6) := mt (bankSlot_inRange_iff a).1 (not_not.2 hslot)
  calc exec i s = poke .armOnly a v s := exec_writeRows_eq_poke (bankselRows_subset hi) s
    _ = bankSelect .armOnly (bankSlot a) v s := poke_of_banksel _ v hl (wrDecode_banksel hc hn hcap h1 h2)
    _ = finish s.block.arm s := bankSelect_armOnly_of_not_inRange v s hrange

/-- The slot is the field `a[3:1]` less 1 (R88). -/
theorem bankSlot_eq_field (a : Addr) : bankSlot a = ((a.extractLsb' 1 3).toNat : Int) - 1 := by
  rw [bankSlot_eq, BitVec.extractLsb'_toNat, Nat.shiftRight_eq_div_pow]
  omega

/-- Settles O38: the write decode's slot is `bankSlot`, whose range is that of a field of three bits less 1. -/
theorem slotNumberFromAddressBits : Obligations.SlotNumberFromAddressBits := by
  intro a
  have hslot := bankSlot_eq a
  exact ⟨fun _ _ hc hn hcap h1 h2 => wrDecode_banksel hc hn hcap h1 h2, rfl, bankSlot_eq_field a, by omega, by omega, by omega⟩

/-- Among the `n` addresses from 0xA130F3 on, slot `m - 1` has those of two residues modulo 16. -/
theorem countP_bankSlot (n : Nat) {m : Nat} (hm : m < 8) :
    (List.range n).countP (fun k => bankSlot (BitVec.ofNat 32 (0xA130F3 + k)) == (m : Int) - 1)
      = n.count (· ≡ 2 * m + 13 [MOD 16]) + n.count (· ≡ 2 * m + 14 [MOD 16]) := by
  induction n with
  | zero => rfl
  | succ n ih =>
    have hslot : bankSlot (BitVec.ofNat 32 (0xA130F3 + n)) = (m : Int) - 1 ↔
        n ≡ 2 * m + 13 [MOD 16] ∨ n ≡ 2 * m + 14 [MOD 16] := by
      rw [bankSlot_eq, BitVec.toNat_ofNat]
      simp only [Nat.ModEq]
      omega
    have hdisjoint : ¬ (n ≡ 2 * m + 13 [MOD 16] ∧ n ≡ 2 * m + 14 [MOD 16]) := by
      simp only [Nat.ModEq]
      omega
    simp only [List.range_succ, List.countP_append, ih, Nat.count_succ, List.countP_singleton, beq_iff_eq, hslot]
    split_ifs <;> grind

/-- Settles O39: 269 addresses are 16 whole periods and 13 more, so the residues 0 to 12 come once more than the others. -/
theorem slotAliasCounts : Obligations.SlotAliasCounts := by
  refine ⟨?_, ?_, fun j => ?_⟩
  · exact (countP_bankSlot 269 (m := 0) (by decide)).trans (by simp [Nat.count_modEq_card])
  · exact (countP_bankSlot 269 (m := 1) (by decide)).trans (by simp [Nat.count_modEq_card])
  · have hm : (j.val : Int) + 1 = (j.val + 2 : Nat) - 1 := by omega
    have hres : (2 * (j.val + 2) + 13) % 16 < 269 % 16 ∧ (2 * (j.val + 2) + 14) % 16 < 269 % 16 := by omega
    rw [hm, countP_bankSlot 269 (by omega), Nat.count_modEq_card 269 (by decide), Nat.count_modEq_card 269 (by decide),
      if_pos hres.1, if_pos hres.2]

/-! ### The banked index -/

/-- Settles O40: the slice's start is the bank value shifted past the 19 bits of the offset. -/
theorem bankedIndexIsConcatenation : Obligations.BankedIndexIsConcatenation := by
  intro b a hb
  have hcat : windowIndex b a = (b ++ addrOff a : BitVec 27).toNat := by
    rw [windowIndex, if_pos hb, BitVec.toNat_append, ← Nat.shiftLeft_add_eq_or_of_lt (addrOff a).isLt, Nat.shiftLeft_eq]
  exact ⟨hcat, hcat ▸ Nat.le_of_lt_succ (b ++ addrOff a : BitVec 27).isLt⟩

/-! ### The step -/

/-- Settles O58: an idle step, a `peek`, a `load` and an `unload` always answer, and a `poke` does because no store leaves its array. -/
theorem everyStepCompletes : Obligations.EveryStepCompletes := fun _ => step_answers

end Sys2Proof.Machine
end

section
/-! The read path (R110 to R122): each row of a `peek` returns the byte its decode resolves to, the reads that are never out of
range, and the bank settings that read as the address itself. -/

namespace Sys2Proof.Machine

/-! ### The rows against the algorithm -/

/-- Settles O10: row by row, the rule where the row's condition holds is the algorithm's branch. -/
theorem readRowsAgreeWithPeekAlgorithm : Obligations.ReadRowsAgreeWithPeekAlgorithm :=
  fun s _ _ hi => exec_readRows_eq_peek hi s

/-! ### What a row returns, by the target of the read decode (R110, R117) -/

/-- Every row of a `peek` that resolves to the image returns that byte of the image. -/
theorem exec_readRows_rom {s : State} {a : Addr} {i : Instr} {n : Nat} (hi : i ∈ readRows a) (hl : s.block.loaded = true)
    (hd : rdDecode s.block a = .rom n) : ReturnsByteOf s.block.rom n s (exec i s) := by
  rw [exec_readRows_eq_peek hi, peek_of_rom _ hl hd]
  exact fetch_returns _ _ _

/-- Every row of a `peek` that resolves to working RAM returns that byte of it. -/
theorem exec_readRows_ram {s : State} {a : Addr} {i : Instr} {n : Nat} (hi : i ∈ readRows a) (hl : s.block.loaded = true)
    (hd : rdDecode s.block a = .ram n) : ReturnsByteOf s.block.ram n s (exec i s) := by
  rw [exec_readRows_eq_peek hi, peek_of_ram _ hl hd]
  exact fetch_returns _ _ _

/-- Every row of a `peek` that resolves to save RAM returns that byte of it. -/
theorem exec_readRows_sram {s : State} {a : Addr} {i : Instr} {n : Nat} (hi : i ∈ readRows a) (hl : s.block.loaded = true)
    (hd : rdDecode s.block a = .sram n) : ReturnsByteOf s.block.sram n s (exec i s) := by
  rw [exec_readRows_eq_peek hi, peek_of_sram _ hl hd]
  exact fetch_returns _ _ _

/-- The row of each banked window is a row of a `peek`. -/
theorem rdWin_mem_readRows (n : Fin 7) (a : Addr) : Instr.rdWin n a ∈ readRows a :=
  mem_readRows_iff.2 (.inr (.inr (.inr (.inl ⟨n, rfl⟩))))

/-- A mapped read inside its array returns `OK` and a byte, and only the response changes. -/
theorem ReturnsByteOf.ok {m : Memory} {n : Nat} {s : State} {o : Out} (h : ReturnsByteOf m n s o) (hn : n < m.len) :
    ∃ b, o = .next { s with response := some { status := some .ok, value := some b, warn := false } } :=
  (h.1 hn).imp fun _ hb => hb.2

/-! ### The index of a banked read (R114) -/

/-- Banked window `n` as the inclusive range of addresses that R28 prints. -/
theorem inWindow_iff {n : Nat} {a : Addr} :
    inWindow n a = true ↔ 0x080000 + n * 0x80000 ≤ a.toNat ∧ a.toNat ≤ 0x0FFFFF + n * 0x80000 := by
  simp only [inWindow, Bool.and_eq_true, decide_eq_true_eq, Config.winBase, Config.winSize]
  omega

/-- Bank value 0 passes the address through. -/
@[simp] theorem windowIndex_zero (a : Addr) : windowIndex 0#8 a = a.toNat := if_neg (not_not.2 rfl)

/-- Any other bank value selects its slice, indexed by the offset in the window. -/
theorem windowIndex_of_ne_zero {b : Byte} {a : Addr} {n : Nat} (hb : b ≠ 0#8) (ha : inWindow n a = true) :
    windowIndex b a = b.toNat * 0x80000 + (a.toNat - (0x080000 + n * 0x80000)) := by
  obtain ⟨h1, h2⟩ := inWindow_iff.1 ha
  rw [windowIndex, if_pos hb, addrOff_toNat, Config.winSize]
  omega

/-- Window `n` shows slice `n + 1` of the image at the slice's own addresses. -/
theorem windowIndex_eq_addr {b : Byte} {a : Addr} {n : Nat} (ha : inWindow n a = true) (hb : b = 0#8 ∨ b.toNat = n + 1) :
    windowIndex b a = a.toNat := by
  rcases hb with rfl | hb
  · exact windowIndex_zero a
  · have hne : b ≠ 0#8 := by rintro rfl; simp at hb
    obtain ⟨h1, -⟩ := inWindow_iff.1 ha
    rw [windowIndex_of_ne_zero hne ha]
    omega

/-- A whole slice inside the image, or an address inside it that is passed through, gives an index inside it. -/
theorem windowIndex_lt {b : Byte} {a : Addr} {len : Nat} (ha : a.toNat < len)
    (hb : b = 0#8 ∨ (b.toNat + 1) * 0x80000 ≤ len) : windowIndex b a < len := by
  rw [windowIndex, addrOff_toNat]
  split
  · have hslice := hb.resolve_left ‹_›
    simp only [Config.winSize]
    omega
  · exact ha

/-! ### The read decode, by the conditions of the rules -/

/-- The banked read decode above the fixed window: the window is that of the address's 512 KiB unit (R114). -/
theorem rdDecode_banked {b : Block} {a : Addr} (hb : b.banked = true) (h1 : 0x7FFFF < a.toNat) (h2 : a.toNat ≤ 0x3FFFFF) :
    rdDecode b a = .rom (windowIndex (b.bankReg (a.toNat / 0x80000 - 1)) a) :=
  rdDecode_window hb (inWindow_of_range h1 h2).1 (inWindow_of_range h1 h2).2

/-- Banked, with each bank register 0 or selecting the slice of its own window, the image is read at the address itself. -/
theorem rdDecode_passThrough {b : Block} {bank : Vector Byte 7} {a : Addr} (hb : b.banked = true) (ha : a.toNat ≤ 0x3FFFFF)
    (hbank : ∀ k : Fin 7, bank[k] = 0#8 ∨ bank[k].toNat = k.val + 1) :
    rdDecode { b with bank := bank } a = .rom a.toNat := by
  by_cases hf : a.toNat ≤ 0x7FFFF
  · exact rdDecode_fixed hb hf
  · obtain ⟨hw, hn⟩ := inWindow_of_range (Nat.not_le.1 hf) ha
    have hreg : Block.bankReg { b with bank := bank } (a.toNat / 0x80000 - 1) = bank[(⟨_, hn⟩ : Fin 7)] :=
      Block.bankReg_fin _ ⟨_, hn⟩
    calc rdDecode { b with bank := bank } a
        = .rom (windowIndex (Block.bankReg { b with bank := bank } (a.toNat / 0x80000 - 1)) a) := rdDecode_window hb hw hn
      _ = .rom a.toNat := by rw [hreg, windowIndex_eq_addr hw (hbank ⟨_, hn⟩)]

/-- Outside the banked ROM range the read decode does not look at the bank registers. -/
theorem rdDecode_ignores_bank (b : Block) (bank : Vector Byte 7) (a : Addr) (h : b.banked = true → 0x3FFFFF < a.toNat) :
    rdDecode { b with bank := bank } a = rdDecode b a := by
  rcases hrom : b.view.romClaims a
  case false =>
    rw [rdDecode_of_not_romClaims hrom]
    exact rdDecode_of_not_romClaims hrom
  case true =>
    have hflat : (!b.banked && b.view.inFlat a) = true := by
      simp only [View.romClaims, Block.view_banked, Config.winTop] at hrom
      refine (Bool.or_eq_true_iff.1 hrom).resolve_right fun hwin => ?_
      obtain ⟨hb, ha⟩ := Bool.and_eq_true_iff.1 hwin
      exact absurd (of_decide_eq_true ha) (Nat.not_le.2 (h hb))
    exact (if_pos hflat).trans (if_pos hflat).symm

/-- The read decode where no read rule matches (R118). -/
theorem rdDecode_unmapped {b : Block} {c : BusConfig} {a : Addr} (hc : b.cfg = some c) (hn : b.NoRomRule c a)
    (h0 : ¬ (c.ramStart.toNat ≤ a.toNat ∧ a.toNat ≤ c.ramEnd.toNat))
    (h1 : ¬ (c.sramPresent = true ∧ c.sramStart.toNat ≤ a.toNat ∧ a.toNat ≤ c.sramEnd.toNat)) :
    rdDecode b a = .unmapped := by
  rw [rdDecode_noRom hc hn, if_neg (by simpa [View.inRamRead, hc] using h0), if_neg (by simpa [View.inSramRead, hc] using h1)]

/-- Where no ROM rule matches, the read decode does not resolve to the image. -/
theorem rdDecode_ne_rom {b : Block} {c : BusConfig} {a : Addr} (hc : b.cfg = some c) (hn : b.NoRomRule c a) (n : Nat) :
    rdDecode b a ≠ .rom n := by
  rw [rdDecode_noRom hc hn]
  split_ifs <;> exact RdTarget.noConfusion

/-! ### The sizes of a Loaded block (R36 (b)) -/

/-- In a loaded block that meets the invariant the banked ROM range lies inside the image (R26, R122). -/
theorem Block.Inv.lt_rom_of_banked {b : Block} {n : Nat} (hb : b.Inv) (hl : b.loaded = true) (hbanked : b.banked = true)
    (hn : n ≤ 0x3FFFFF) : n < b.rom.len := by
  obtain ⟨-, -, -, -, -, -, -, -, -, hcapable⟩ := hb.2.1 hl
  have := hcapable.1 (Bool.and_eq_true_iff.1 hbanked).1
  omega

/-- In a loaded block that meets the invariant the arrays have the sizes of the block's configuration. -/
theorem Block.Inv.sizes {b : Block} {c : BusConfig} (hb : b.Inv) (hl : b.loaded = true) (hc : b.cfg = some c) :
    c.romEnd.toNat - c.romStart.toNat ≤ b.rom.len ∧ b.ram.len = c.ramEnd.toNat - c.ramStart.toNat ∧
      (c.sramPresent = true → b.sram.len = c.sramEnd.toNat - c.sramStart.toNat) := by
  obtain ⟨c', hc', -, hrom, -, hram, -, hsram, -⟩ := hb.2.1 hl
  cases hc.symm.trans hc'
  exact ⟨hrom, hram, fun hp => (hsram hp).2.1⟩

/-! ### The rules of the rows -/

/-- Settles O12: both algorithms ask `S.loaded` first. -/
theorem unloadedAccessReturnsNotLoaded : Obligations.UnloadedAccessReturnsNotLoaded := by
  intro s a v hl
  constructor
  · rw [exec_readRows_eq_peek (a := a) (by simp [readRows]), peek_of_not_loaded _ a hl, raiseStatus_eq]
  · rw [exec_writeRows_eq_poke (a := a) (v := v) (by simp [writeRows]), poke_of_not_loaded _ a v hl, raiseStatus_eq]

/-- Settles O13, by the read decode of flat ROM. -/
theorem flatReadReturnsImageByte : Obligations.FlatReadReturnsImageByte := fun _ _ _ hl hb hc h1 h2 =>
  exec_readRows_rom (by simp [readRows]) hl (rdDecode_flat hb hc h1 h2)

/-- Settles O14: a capable image is longer than the whole banked range. -/
theorem fixedWindowReadsAbsoluteIndex : Obligations.FixedWindowReadsAbsoluteIndex := by
  intro s a hl hcap harm ha
  have hb : s.block.banked = true := Bool.and_eq_true_iff.2 ⟨hcap, harm⟩
  have hret : ReturnsByteOf s.block.rom a.toNat s (exec (.rdFixed a) s) :=
    exec_readRows_rom (by simp [readRows]) hl (rdDecode_fixed hb ha)
  exact ⟨hret, fun hinv => hret.ok (hinv.lt_rom_of_banked hl hb (by omega))⟩

/-- Settles O15: the decode computes the row's window number, so the index comes from the window's own bank register. -/
theorem bankedWindowReadsSelectedSlice : Obligations.BankedWindowReadsSelectedSlice := by
  intro s n a hl hcap harm h1 h2
  have hb : s.block.banked = true := Bool.and_eq_true_iff.2 ⟨hcap, harm⟩
  have hw : inWindow n a = true := inWindow_iff.2 ⟨h1, h2⟩
  have hret : ReturnsByteOf s.block.rom (windowIndex s.block.bank[n] a) s (exec (.rdWin n a) s) := by
    rw [← Block.bankReg_fin]
    exact exec_readRows_rom (rdWin_mem_readRows n a) hl (rdDecode_window hb hw n.isLt)
  constructor <;> intro h0
  · rwa [windowIndex_of_ne_zero h0 hw] at hret
  · rwa [h0, windowIndex_zero] at hret

/-- Settles O16, by the read decode of the RAM window. -/
theorem ramReadReturnsRamByte : Obligations.RamReadReturnsRamByte := fun _ _ _ hl hc hn h1 h2 =>
  exec_readRows_ram (by simp [readRows]) hl (rdDecode_ram hc hn h1 h2)

/-- Settles O17, by the read decode of the save-RAM window. -/
theorem sramReadReturnsSramByte : Obligations.SramReadReturnsSramByte := fun _ _ _ hl hc hn h0 hp h1 h2 =>
  exec_readRows_sram (by simp [readRows]) hl (rdDecode_sram hc hn h0 hp h1 h2)

/-- Settles O18: the decode finds no rule, and the algorithm raises `BusError`. -/
theorem unmappedReadReturnsBusError : Obligations.UnmappedReadReturnsBusError := by
  intro s c a hl hc hn h0 h1
  rw [exec_readRows_eq_peek (a := a) (by simp [readRows]), peek_of_unmapped _ hl (rdDecode_unmapped hc hn h0 h1), raiseStatus_eq]

/-- Settles O20: in each of R122's cases the index of the decode lies inside its array, by the sizes of R36 (b). -/
theorem inRangeReadsAlwaysReturnAByte : Obligations.InRangeReadsAlwaysReturnAByte := by
  intro s c a hinv hl hc hcase i hi
  obtain ⟨hrom, hram, hsram⟩ := hinv.sizes hl hc
  rcases hcase with ⟨hb, ha, hwin⟩ | ⟨hb, h1, h2⟩ | ⟨hn, h1, h2⟩ | ⟨hn, h0, hp, h1, h2⟩
  · -- banked ROM
    have hlt : a.toNat < s.block.rom.len := hinv.lt_rom_of_banked hl hb ha
    by_cases hf : a.toNat ≤ 0x7FFFF
    · exact (exec_readRows_rom hi hl (rdDecode_fixed hb hf)).ok hlt
    · exact (exec_readRows_rom hi hl (rdDecode_banked hb (by omega) ha)).ok (windowIndex_lt hlt (hwin.resolve_left hf))
  · -- flat ROM
    exact (exec_readRows_rom hi hl (rdDecode_flat hb hc h1 (by omega))).ok (by omega)
  · -- working RAM
    exact (exec_readRows_ram hi hl (rdDecode_ram hc hn h1 h2.le)).ok (by omega)
  · -- save RAM
    have hlen := hsram hp
    exact (exec_readRows_sram hi hl (rdDecode_sram hc hn h0 hp h1 h2.le)).ok (by omega)

/-! ### The bank settings and the read map (R114, R121) -/

/-- In the identity setting register `k` selects the slice of its own window. -/
theorem identityBanks_toNat :
    ∀ k : Fin 7, (#v[1#8, 2#8, 3#8, 4#8, 5#8, 6#8, 7#8] : Vector Byte 7)[k].toNat = k.val + 1 := by decide

/-- In the setting that a load leaves every register passes through. -/
theorem zeroBanks : ∀ k : Fin 7, (#v[0#8, 0#8, 0#8, 0#8, 0#8, 0#8, 0#8] : Vector Byte 7)[k] = 0#8 := by decide

/-- Settles O35: banked, both settings read the address itself; elsewhere the decode ignores the registers. -/
theorem identityBanksReadAsPassThrough : Obligations.IdentityBanksReadAsPassThrough := by
  intro b a
  by_cases h : b.banked = true ∧ a.toNat ≤ 0x3FFFFF
  · obtain ⟨hb, ha⟩ := h
    rw [rdDecode_passThrough hb ha fun k => .inr (identityBanks_toNat k), rdDecode_passThrough hb ha fun k => .inl (zeroBanks k)]
  · have hout : b.banked = true → 0x3FFFFF < a.toNat := fun hb => Nat.not_le.1 fun ha => h ⟨hb, ha⟩
    exact (rdDecode_ignores_bank b _ a hout).trans (rdDecode_ignores_bank b _ a hout).symm

/-- Settles O36: armed, the ROM rules are the fixed window and the banked windows; before, flat ROM. -/
theorem armingReplacesTheFlatMap : Obligations.ArmingReplacesTheFlatMap := by
  intro b c a hcap harm hc
  have hbanked : Block.banked { b with armed := true } = true := Bool.and_eq_true_iff.2 ⟨hcap, rfl⟩
  refine ⟨fun ha => ?_, fun ha => ?_, fun ha hbank => ?_, fun h1 h2 => ?_⟩
  · refine rdDecode_ne_rom (c := c) hc ⟨fun hb => ?_, fun _ => ha⟩
    exact absurd hbanked (ne_true_of_eq_false hb)
  · refine rdDecode_rom (c := c) hc fun hn => ?_
    have := hn.2 hbanked
    omega
  · exact rdDecode_passThrough hbanked ha fun k => .inl (hbank k)
  · exact rdDecode_flat (by rw [Block.banked, harm, Bool.and_false]) hc h1 h2

end Sys2Proof.Machine
end

section
/-! The write path (R140 to R150): which row a `poke` is, what each target of the write decode does, and what a `poke` leaves
unchanged. -/

namespace Sys2Proof.Machine

/-! ### The row of a `poke` (R85, R150) -/

/-- The nine rows of a `poke` of `a`, as functions of its data byte. -/
def pokeRows (a : Addr) : List (Byte → Instr) :=
  [.wrNotLoaded a, .wrRam a, .wrSram a, .wrArm a, .wrBankselF3 a, .wrBankselF4 a, .wrBankselF8 a, .wrBanksel131 a, .wrDiscard a]

theorem writeRows_eq_map (a : Addr) (d : Byte) : writeRows a d = (pokeRows a).map (· d) := rfl

/-- No condition of a `poke` row reads the data byte. -/
theorem rowHolds_pokeRows_data {v : View} {a : Addr} {row : Byte → Instr} (hrow : row ∈ pokeRows a) (d e : Byte) :
    rowHolds v (row d) = rowHolds v (row e) := by
  simp only [pokeRows, List.mem_cons, List.not_mem_nil, or_false] at hrow
  rcases hrow with rfl | rfl | rfl | rfl | rfl | rfl | rfl | rfl | rfl <;> rfl

/-- Settles O6: the row decoded for the data byte 0 is in force for every data byte, so it is the row decoded for each. -/
theorem dataNeverSelectsTheRow : Obligations.DataNeverSelectsTheRow := by
  intro v a
  obtain ⟨row, hrow, h0⟩ := List.mem_map.1 (writeRows_eq_map a 0 ▸ writeRow_mem v a 0)
  refine ⟨row, hrow, fun d => ?_⟩
  have hold : rowHolds v (row d) = true :=
    (rowHolds_pokeRows_data hrow d 0).trans ((congrArg _ h0).trans (rowHolds_writeRow v a 0))
  rw [decodeIn_packT_write, writeRow_eq_of_rowHolds (writeRows_eq_map a d ▸ List.mem_map_of_mem hrow) hold]

/-- Settles O11: row by row, the rule where the row's condition holds is the algorithm's branch. -/
theorem writeRowsAgreeWithPokeAlgorithm : Obligations.WriteRowsAgreeWithPokeAlgorithm :=
  fun s _ _ _ hi => exec_writeRows_eq_poke hi s

/-! ### What a row does, by the target of the write decode (R140, R148) -/

section
variable {s : State} {a : Addr} {v : Byte} {i : Instr} (hi : i ∈ writeRows a v) (hl : s.block.loaded = true)
include hi hl

/-- Every row of a `poke` that resolves to working RAM stores its byte there. -/
theorem exec_writeRows_ram {j : Nat} (hj : j < s.block.ram.len) (hw : wrDecode s.block a = .ram j) :
    exec i s = finish (s.block.writeRam j v) s := by
  rw [exec_writeRows_eq_poke hi, poke_of_ram _ v hl hw, storeRam, if_pos hj]

/-- Every row of a `poke` that resolves to save RAM stores its byte there. -/
theorem exec_writeRows_sram {j : Nat} (hj : j < s.block.sram.len) (hw : wrDecode s.block a = .sram j) :
    exec i s = finish (s.block.writeSram j v) s := by
  rw [exec_writeRows_eq_poke hi, poke_of_sram _ v hl hw, storeSram, if_pos hj]

/-- Every row of a `poke` that resolves to the enable register arms the mapper. -/
theorem exec_writeRows_arm (hw : wrDecode s.block a = .arm) : exec i s = finish s.block.arm s := by
  rw [exec_writeRows_eq_poke hi, poke_of_arm _ v hl hw, armMapper]

/-- Every row of a `poke` that resolves to bank register `k` arms the mapper and stores its byte there. -/
theorem exec_writeRows_banksel {k : Fin 7} (hw : wrDecode s.block a = .banksel k.val) :
    exec i s = finish (s.block.arm.setBank k v) s := by
  rw [exec_writeRows_eq_poke hi, poke_of_banksel _ v hl hw, bankSelect_of_inRange _ v s (by omega), Int.toNat_natCast]

/-- Every row of a `poke` that no rule claims returns `OK` and does nothing. -/
theorem exec_writeRows_discard (hw : wrDecode s.block a = .discard) : exec i s = raiseStatus .ok s := by
  rw [exec_writeRows_eq_poke hi, poke_of_discard _ v hl hw]

end

/-! ### What a `poke` leaves of each array and register (R149) -/

section
variable {s t : State} {a : Addr} {v : Byte} (h : poke .armOnly a v s = .next t)
include h

/-- Each array and the bank registers after a `poke`: as before, or with the one byte stored that the decode names. -/
theorem poke_stores :
    (t.block.ram = s.block.ram ∨ ∃ j, wrDecode s.block a = .ram j ∧ t.block.ram = s.block.ram.write j v) ∧
    (t.block.sram = s.block.sram ∨ ∃ j, wrDecode s.block a = .sram j ∧ t.block.sram = s.block.sram.write j v) ∧
    (t.block.bank = s.block.bank ∨
      ∃ k : Nat, wrDecode s.block a = .banksel k ∧ t.block.bank = (s.block.arm.setBank k v).bank) := by
  obtain ⟨-, -, ⟨-, ht, -⟩ | ⟨-, -, heffect⟩⟩ := poke_next h
  · rw [ht]
    exact ⟨.inl rfl, .inl rfl, .inl rfl⟩
  rcases heffect with ⟨j, hw, -, ht⟩ | ⟨j, hw, -, ht⟩ | ⟨-, ht⟩ | ⟨k, hw, hk, -, ht⟩ | ⟨k, -, -, ht⟩ | ⟨-, ht⟩ <;> rw [ht]
  · exact ⟨.inr ⟨j, hw, rfl⟩, .inl rfl, .inl rfl⟩
  · exact ⟨.inl rfl, .inr ⟨j, hw, rfl⟩, .inl rfl⟩
  · exact ⟨.inl rfl, .inl rfl, .inl rfl⟩
  · exact ⟨.inl (Block.setBank_ram _ _ _), .inl (Block.setBank_sram _ _ _),
      .inr ⟨k.toNat, by rw [hw, Int.toNat_of_nonneg hk], rfl⟩⟩
  · exact ⟨.inl rfl, .inl rfl, .inl rfl⟩
  · exact ⟨.inl rfl, .inl rfl, .inl rfl⟩

/-- Where the decode names no RAM index, a `poke` leaves working RAM. -/
theorem poke_ram_eq (hne : ∀ j, wrDecode s.block a ≠ .ram j) : t.block.ram = s.block.ram :=
  (poke_stores h).1.resolve_right fun ⟨j, hw, _⟩ => hne j hw

/-- Where the decode names no save-RAM index, a `poke` leaves save RAM. -/
theorem poke_sram_eq (hne : ∀ j, wrDecode s.block a ≠ .sram j) : t.block.sram = s.block.sram :=
  (poke_stores h).2.1.resolve_right fun ⟨j, hw, _⟩ => hne j hw

end

/-- An array that at most one store has changed keeps its length, and every byte whose index is not the store's. -/
theorem Memory.frame_of_eq_or_write {m k : Memory} {v : Byte} {p : Nat → Prop}
    (h : k = m ∨ ∃ j, p j ∧ k = m.write j v) : k.len = m.len ∧ ∀ j, ¬ p j → k.read j = m.read j := by
  rcases h with rfl | ⟨j, hj, rfl⟩
  · exact ⟨rfl, fun _ _ => rfl⟩
  · exact ⟨rfl, fun n hn => Memory.read_write_ne v fun e => hn (e ▸ hj)⟩

/-- Settles O28: the load is kept (R36), and each array and register is as before but for what the decode names. -/
theorem writeRowsChangeOnlyTheirTarget : Obligations.WriteRowsChangeOnlyTheirTarget := by
  intro s t a v i hi ht
  rw [exec_writeRows_eq_poke hi] at ht
  obtain ⟨hissued, hoperand, -⟩ := poke_next ht
  obtain ⟨-, hrom, hcfg, hcap, hloaded⟩ := poke_keepsLoad ht
  obtain ⟨hramStore, hsramStore, hbank⟩ := poke_stores ht
  obtain ⟨hramLen, hram⟩ := Memory.frame_of_eq_or_write hramStore
  obtain ⟨hsramLen, hsram⟩ := Memory.frame_of_eq_or_write hsramStore
  refine ⟨by simp only [hrom, hcfg, hcap, hloaded], hissued, hoperand, hramLen, hsramLen, fun hl => ?_, hram, hsram, fun hw => ?_,
    fun k hk => ?_⟩
  · rw [poke_of_not_loaded _ a v hl] at ht
    cases ht
    rfl
  · rw [Bool.eq_iff_iff, poke_armed_iff ht]
    simp [hw]
  · rcases hbank with hb | ⟨n, hw, hb⟩ <;> rw [hb]
    exact Block.setBank_bank_ne _ n k v fun e => hk (e ▸ hw)

/-! ### The stores (R142, R143, R148) -/

/-- Settles O29: a `poke` of a block that meets the invariant answers, and its status in a loaded block is `OK`. -/
theorem loadedPokeAlwaysReturnsOk : Obligations.LoadedPokeAlwaysReturnsOk := by
  intro s a v i hinv hl hi
  obtain ⟨t, ht⟩ := poke_answers hinv a v
  obtain ⟨-, -, ⟨hl', -⟩ | ⟨-, hresponse, -⟩⟩ := poke_next ht
  · simp [hl] at hl'
  · exact ⟨t, (exec_writeRows_eq_poke hi s).trans ht, hresponse⟩

/-- Settles O30: the bounds of the two write windows, against the sizes of R36 (b). -/
theorem storesLieInsideTheirArray : Obligations.StoresLieInsideTheirArray :=
  fun _ _ _ hinv hl => ⟨hinv.wrDecode_ram_bound hl, hinv.wrDecode_sram_bound hl⟩

/-- Outside the RAM write window the write decode names no RAM index (R142). -/
theorem wrDecode_ne_ram {b : Block} {c : BusConfig} {a : Addr} (hc : b.cfg = some c)
    (h0 : ¬ (c.ramStart.toNat ≤ a.toNat ∧ a.toNat + 2 ≤ c.ramEnd.toNat)) (j : Nat) : wrDecode b a ≠ .ram j := by
  rw [wrDecode, if_neg (mt (inRamWrite_iff hc).1 h0)]
  split_ifs <;> exact WrTarget.noConfusion

/-- Outside the save-RAM write window the write decode names no save-RAM index (R143). -/
theorem wrDecode_ne_sram {b : Block} {c : BusConfig} {a : Addr} (hc : b.cfg = some c)
    (h0 : ¬ (c.sramPresent = true ∧ c.sramStart.toNat ≤ a.toNat ∧ a.toNat + 2 ≤ c.sramEnd.toNat)) (j : Nat) :
    wrDecode b a ≠ .sram j := by
  rw [wrDecode, if_neg (mt (inSramWrite_iff hc).1 h0)]
  split_ifs <;> exact WrTarget.noConfusion

/-- Settles O22: the window's index lies inside the array, whose canonical form gives the byte back; outside the window the decode names
no RAM index. -/
theorem ramWriteStoresOneByte : Obligations.RamWriteStoresOneByte := by
  intro s c a v hinv hl hc h1
  have ⟨_, _, _, ⟨_, hwf, _⟩, _⟩ := hinv
  refine ⟨fun h2 => ?_, fun h2 i hi => ?_⟩
  · have hw := wrDecode_ram hc h1 h2
    have hj : a.toNat - c.ramStart.toNat < s.block.ram.len := Nat.lt_of_add_right_lt (hinv.wrDecode_ram_bound hl hw)
    exact ⟨_, exec_writeRows_ram (a := a) (by simp [writeRows]) hl hj hw, rfl, rfl, Memory.read_write_self v hwf hj,
      fun _ hne => Memory.read_write_ne v hne, rfl, rfl, rfl⟩
  · obtain ⟨t, ht, hresponse⟩ := loadedPokeAlwaysReturnsOk s a v i hinv hl hi
    have hpoke := (exec_writeRows_eq_poke hi s).symm.trans ht
    exact ⟨t, ht, poke_ram_eq hpoke (wrDecode_ne_ram hc (by omega)), hresponse⟩

/-- Settles O23: as for RAM, behind the RAM write window. -/
theorem sramWriteStoresOneByte : Obligations.SramWriteStoresOneByte := by
  intro s c a v hinv hl hc h0
  have ⟨_, _, _, ⟨_, _, hwf⟩, _⟩ := hinv
  refine ⟨fun hp h1 h2 => ?_, fun hout i hi => ?_⟩
  · have hw := wrDecode_sram hc h0 hp h1 h2
    have hj : a.toNat - c.sramStart.toNat < s.block.sram.len := Nat.lt_of_add_right_lt (hinv.wrDecode_sram_bound hl hw)
    exact ⟨_, exec_writeRows_sram (a := a) (by simp [writeRows]) hl hj hw, rfl, rfl, Memory.read_write_self v hwf hj,
      fun _ hne => Memory.read_write_ne v hne, rfl, rfl, rfl⟩
  · obtain ⟨t, ht, hresponse⟩ := loadedPokeAlwaysReturnsOk s a v i hinv hl hi
    have hpoke := (exec_writeRows_eq_poke hi s).symm.trans ht
    have hwindow : ¬ (c.sramPresent = true ∧ c.sramStart.toNat ≤ a.toNat ∧ a.toNat + 2 ≤ c.sramEnd.toNat) := by
      rintro ⟨hp, -, h2⟩
      rcases hout with hp' | h2'
      · simp [hp] at hp'
      · omega
    exact ⟨t, ht, poke_sram_eq hpoke (wrDecode_ne_sram hc hwindow), poke_ram_eq hpoke (wrDecode_ne_ram hc h0), hresponse⟩

/-! ### The registers (R144 to R146) -/

/-- Settles O31: the write decode unfolds to terms of the configuration and the capability alone. -/
theorem writeDecodeIgnoresArmedAndBanks : Obligations.WriteDecodeIgnoresArmedAndBanks := by
  rintro ⟨⟩ ⟨⟩ a rfl rfl
  rfl

/-- On a cartridge that is not capable the read decode depends on the configuration only: the mapper is never banked (R16, R111). -/
theorem rdDecode_eq_of_not_capable {b d : Block} (hb : b.capable = false) (hd : d.capable = false) (hc : b.cfg = d.cfg)
    (a : Addr) : rdDecode b a = rdDecode d a := by
  have hbanked : ∀ e : Block, e.capable = false → e.banked = false := fun e he => by rw [Block.banked, he, Bool.false_and]
  rw [rdDecode, rdDecode, hbanked b hb, hbanked d hd]
  cases b
  cases d
  cases hc
  rfl

/-- Settles O24: the decode names the enable register; without capability neither decode reads the flag. -/
theorem enableRegisterArms : Obligations.EnableRegisterArms := by
  intro s c a v hl hc hn ha
  refine ⟨?_, fun hcap x => ⟨?_, writeDecodeIgnoresArmedAndBanks _ _ x rfl rfl⟩⟩
  · exact exec_writeRows_arm (a := a) (v := v) (by simp [writeRows]) hl (wrDecode_arm hc hn ((eq_regArm_iff a).1 ha))
  · exact rdDecode_eq_of_not_capable (b := s.block.arm) hcap hcap rfl x

/-- Writing a register that exists, as a record. -/
theorem Block.setBank_fin (b : Block) (k : Fin 7) (v : Byte) : b.setBank k v = { b with bank := b.bank.set k v } :=
  dif_pos k.isLt

/-- Settles O25: the pattern rows run `poke`, which reaches the bank-select rule with the slot `k`. -/
theorem bankSelectStoresOneRegister : Obligations.BankSelectStoresOneRegister := by
  intro s c a v k i hi hl hcap hc hn h1 h2 hslot
  have hk : bankSlot a = k.val := by
    rw [bankSlot_eq]
    omega
  have hw : wrDecode s.block a = .banksel k.val := hk ▸ wrDecode_banksel hc hn hcap h1 h2
  refine ⟨_, exec_writeRows_banksel (bankselRows_subset hi) hl hw, rfl, Block.setBank_armed _ k v, Block.setBank_bank_self _ k v,
    fun j hj => ?_, ?_, rfl, rfl⟩
  · exact Block.setBank_bank_ne _ k j v (Fin.val_ne_of_ne hj)
  · rw [State.respond_block, State.withBlock_block, Block.setBank_fin]
    rfl

/-- Settles O27: where no rule matches, the decode discards the write. -/
theorem unclaimedWriteIsDiscarded : Obligations.UnclaimedWriteIsDiscarded := by
  intro s c a v hl hc hn harm hbank
  have hw : wrDecode s.block a = .discard := by
    rw [wrDecode_of_not_ramClaims ((noRamWrite_iff hc).1 hn), if_neg harm, if_neg (by tauto)]
  exact exec_writeRows_discard (a := a) (v := v) (by simp [writeRows]) hl hw

/-- Settles O34: the `poke` keeps the configuration, the image and the capability, so the address resolves to the same index of the same
image. -/
theorem incapablePokesKeepRomReads : Obligations.IncapablePokesKeepRomReads := by
  intro s t a x v i j hcap hi ht ⟨n, hn⟩ hj o ho
  rw [exec_writeRows_eq_poke hi] at ht
  rw [exec_readRows_eq_peek hj] at ho ⊢
  obtain ⟨-, hrom, hcfg, hcapable, hloaded⟩ := poke_keepsLoad ht
  have hn' : rdDecode t.block x = .rom n := (rdDecode_eq_of_not_capable (hcapable.trans hcap) hcap hcfg x).trans hn
  exact peek_of_same_rom hn hn' hrom hloaded ho

end Sys2Proof.Machine
end

section
/-! The lifecycle (R170 to R180): what each test of `load` answers, what a successful `load` leaves, and the transitions of R170. -/

namespace Sys2Proof.Machine

/-! ### The tests of a request -/

/-- The presence bit of a request in the terms of R173. -/
theorem LoadRequest.present_eq {r : LoadRequest} {p : Bool}
    (hp : p = true ↔ (r.sramFlag0 = 0x52#8 ∧ r.sramFlag1 = 0x41#8) ∨ r.sramFlag0 = 0xF8#8) : r.present = p := by
  rw [Bool.eq_iff_iff, hp]
  simp [LoadRequest.present, sramPresentOf]

/-- Capability in the terms of R175: the test is on the image's length, and strict. -/
theorem capableOf_iff (rom : Memory) : capableOf rom = true ↔ 0x400000 < rom.len := decide_eq_true_iff

/-- A request whose tests pass replaces the whole block (R172). -/
theorem exec_load_request_ok {s : State} {r : LoadRequest} (ho : s.operand = .request r) (hr : loadStatus r = .ok) :
    exec .load s = .next ((s.withBlock (Block.reset.commit r)).respond (Response.ofStatus .ok)) := by
  simp only [exec, execLoad, ho, loadBlock, loadTested, hr, if_true]
  rfl

/-- A request that fails a test leaves the reset block (R172, R179). -/
theorem exec_load_request_fails {s : State} {r : LoadRequest} {st : Status} (ho : s.operand = .request r)
    (hr : loadStatus r = st) (hst : st ≠ .ok) :
    exec .load s = .next ((s.withBlock Block.reset).respond (Response.ofStatus st)) := by
  simp only [exec, execLoad, ho, loadBlock, loadTested, hr, if_neg hst]
  rfl

/-- Settles O43: `loadStatus` is a chain of tests; each clause is the test at its head, and passing that test leaves the rest of the
chain. -/
theorem badRequestFailsInOrder : Obligations.BadRequestFailsInOrder := by
  intro s r p ho hp fails
  have hpresent : r.present = p := LoadRequest.present_eq hp
  have hfails (st : Status) (hr : loadStatus r = st) (hst : st ≠ .ok) : fails st := exec_load_request_fails ho hr hst
  rw [loadStatus, LoadRequest.ramSize, LoadRequest.sramSize, hpresent] at hfails
  refine ⟨fun h => hfails _ (if_pos h) nofun, fun hrom => ?_⟩
  rw [if_neg hrom.not_gt] at hfails
  refine ⟨fun h => hfails _ (if_pos h) nofun, fun hlen => ?_⟩
  rw [if_neg hlen.not_gt] at hfails
  refine ⟨fun h => hfails _ (if_pos h) nofun, fun hram => ?_⟩
  rw [if_neg hram.not_gt] at hfails
  refine ⟨fun h => hfails _ (if_pos h) nofun, fun hmax htrue => ?_⟩
  simp only [if_neg hmax.not_gt, htrue, Bool.true_and, decide_eq_true_eq, if_true] at hfails
  refine ⟨fun h => hfails _ (if_pos h) nofun, fun h => ?_⟩
  have horder : ¬ r.sramEnd.toNat < r.sramStart.toNat := by omega
  rw [if_neg horder] at hfails
  exact hfails _ (if_pos h) nofun

/-- Settles O42: the hypotheses are the tests of `load`, so the request is committed. -/
theorem goodRequestLoads : Obligations.GoodRequestLoads := by
  intro s r p ho hp hrom hlen hram hmax hsram
  obtain rfl : r.present = p := LoadRequest.present_eq hp
  have hr : loadStatus r = .ok := (loadStatus_eq_ok_iff r).2 ⟨hrom, hlen, hram, hmax, hsram⟩
  exact ⟨_, exec_load_request_ok ho hr, rfl, rfl, rfl, rfl, rfl, rfl, rfl, fun _ => Memory.read_zeros, rfl,
    fun _ => Memory.read_zeros, capableOf_iff r.rom, rfl, bank_zeros⟩

/-! ### Unload -/

/-- `unload` leaves the reset block, from any state, and has no status (R176). -/
theorem exec_unload (s : State) :
    exec .unload s = .next ((s.withBlock Block.reset).respond { status := none, value := none, warn := false }) := rfl

/-- Settles O44: the block left is the reset block, written out field by field. -/
theorem unloadEmptiesTheBlock : Obligations.UnloadEmptiesTheBlock := exec_unload

/-! ### Transitions -/

/-- Settles O46: the block is loaded only by a commit, which takes image and capability from the request. -/
theorem capableIffImageOverFourMiB : Obligations.CapableIffImageOverFourMiB := by
  intro s t h hl
  obtain ⟨-, -, _, _, -, ⟨-, ht⟩ | ⟨-, r, -, ht, horigin⟩⟩ := execLoad_next h
  · rw [ht] at hl
    cases hl
  rw [ht]
  refine ⟨capableOf_iff r.rom, fun q hq => ?_⟩
  rcases horigin with ho | ⟨_, _, _, ho, -⟩ <;> rw [ho] at hq <;> cases hq
  rfl

/-- Settles O45: `unload` leaves the reset block; a `load` leaves that or the commit of its request, at either level; a `peek` or `poke`
keeps the load. -/
theorem lifecycleTransitions : Obligations.LifecycleTransitions := by
  intro s t tr rest h ht
  refine ⟨fun ho => ?_, fun ho => ?_, fun hop => ?_⟩
  · rw [step_unload h ho] at ht
    cases ht
    rfl
  · rw [step_load h ho] at ht
    obtain ⟨-, -, st, w, hresponse, ⟨hst, hblock⟩ | ⟨rfl, r, -, hblock, horigin⟩⟩ := execLoad_next ht
    · exact ⟨_, hresponse, fun _ => hblock, fun hok => absurd (Option.some.inj hok) hst⟩
    refine ⟨_, hresponse, fun hne => absurd rfl hne, fun _ => ?_⟩
    rw [hblock]
    refine ⟨rfl, rfl, bank_zeros, fun _ => Memory.read_zeros, fun _ => Memory.read_zeros, r.config, rfl, fun q hq => ?_,
      fun f hf => ?_⟩
    · rcases horigin with hr | ⟨_, _, _, hr, -⟩ <;> cases hr.symm.trans hq
      exact ⟨rfl, rfl, rfl, rfl, rfl, rfl, rfl, rfl⟩
    · rcases horigin with hr | ⟨_, k, d, hr, hk, hd, rfl⟩ <;> cases hr.symm.trans hf
      exact ⟨d, k, hd, hk, rfl, rfl, rfl, rfl, rfl, rfl, rfl, rfl⟩
  · obtain ⟨-, hrom, hcfg, hcapable, hloaded⟩ := step_keepsLoad h hop ht
    exact ⟨hloaded, hcfg, hrom, hcapable⟩

end Sys2Proof.Machine
end

section
/-! Hazards (R250 to R258): what stands at the top byte of each RAM, and how a 16-bit register write splits into bytes. -/

namespace Sys2Proof.Machine

/-! ### The top byte of each RAM (R254) -/

/-- A mapped read whose byte is known returns it. -/
theorem ReturnsByteOf.eq_of_read {m : Memory} {n : Nat} {s : State} {o : Out} {v : Byte} (h : ReturnsByteOf m n s o)
    (hv : m.read n = some v) : o = .next { s with response := some { status := some .ok, value := some v, warn := false } } := by
  have hn : n < m.len := Memory.read_isSome_iff.1 (by rw [hv]; rfl)
  obtain ⟨b, hb, ho⟩ := h.1 hn
  cases hv.symm.trans hb
  exact ho

/-- Settles O21: the address is the last of the array, whose byte the invariant keeps at 0. -/
theorem topRamByteReadsZero : Obligations.TopRamByteReadsZero := by
  intro s c a hinv hl hc hn
  obtain ⟨-, hram, hsram⟩ := hinv.sizes hl hc
  have ⟨_, _, _, _, hramZero, hsramZero⟩ := hinv
  refine ⟨fun h1 h2 => ?_, fun hp h0 h1 h2 => ?_⟩
  · exact (ramReadReturnsRamByte s c a hl hc hn h1 (by omega)).eq_of_read (hramZero _ (by omega))
  · have hlen := hsram hp
    exact (sramReadReturnsSramByte s c a hl hc hn h0 hp h1 (by omega)).eq_of_read (hsramZero _ (by omega))

/-! ### A 16-bit register write (R258) -/

section
variable {s t : State} {a : Addr} {v : Byte} {i : Instr} {k : Fin 7} (hi : i ∈ writeRows a v) (hl : s.block.loaded = true)
  (hw : wrDecode s.block a = .banksel k.val) (h : exec i s = .next t)
include hi hl hw h

/-- The block that a write of bank register `k` leaves (R145). -/
theorem block_of_exec_banksel : t.block = { s.block with armed := true, bank := s.block.bank.set k v } := by
  rw [exec_writeRows_banksel hi hl hw, Block.setBank_fin] at h
  cases h
  rfl

/-- Of two writes of bank register `k`, through whatever addresses, the later one stays. -/
theorem block_of_exec_banksel_twice {u : State} {b : Addr} {w : Byte} {j : Instr} (hj : j ∈ writeRows b w)
    (hw' : wrDecode s.block b = .banksel k.val) (h' : exec j t = .next u) :
    u.block = { s.block with armed := true, bank := s.block.bank.set k w } := by
  have ht := block_of_exec_banksel hi hl hw h
  have hdecode : wrDecode t.block b = .banksel k.val := by
    rw [← hw', ht]
    exact writeDecodeIgnoresArmedAndBanks _ _ b rfl rfl
  rw [block_of_exec_banksel hj (by rw [ht]; exact hl) hdecode h', ht]
  simp

end

/-- Settles O37: 0xA130F2 names no register, 0xA130F3 names register 0, and 0xA130F4 and 0xA130F5 both name register 1. -/
theorem wideRegisterWritesSplitIntoBytes : Obligations.WideRegisterWritesSplitIntoBytes := by
  intro s t u c x y hl hcap hc hn
  have hregister (a : Addr) (k : Fin 7) (h1 : 0xA130F3 ≤ a.toNat) (h2 : a.toNat ≤ 0xA130F5) (hk : bankSlot a = k.val) :
      wrDecode s.block a = .banksel k.val :=
    hk ▸ wrDecode_banksel hc (hn a (by omega) h2) hcap h1 (by omega)
  have hF3 := hregister 0x00A130F3 0 (by decide) (by decide) (by decide)
  have hF4 := hregister 0x00A130F4 1 (by decide) (by decide) (by decide)
  have hF5 := hregister 0x00A130F5 1 (by decide) (by decide) (by decide)
  refine ⟨fun hs ht => ?_, fun hs ht => ?_, fun hs ht => ?_⟩
  · have hdiscard := unclaimedWriteIsDiscarded s c 0x00A130F2 x hl hc (hn _ (by decide) (by decide)) (by decide)
      fun ⟨_, hlow, _⟩ => absurd hlow (by decide)
    cases hdiscard.symm.trans hs
    exact block_of_exec_banksel (k := 0) (i := .wrBankselF3 _ y) (by simp [writeRows]) hl hF3 ht
  · exact block_of_exec_banksel_twice (v := x) (by simp [writeRows]) hl hF4 hs (by simp [writeRows]) hF5 ht
  · exact block_of_exec_banksel_twice (v := x) (by simp [writeRows]) hl hF5 hs (by simp [writeRows]) hF4 ht

end Sys2Proof.Machine
end

section
/-! The host's loader (R240 to R247): the header layout, the checksum, the image and its container, and the tests of `load(path)`. -/

namespace Sys2Proof.Machine

/-! ### Listed bytes, part by part -/

section
variable {l l' : List Byte} {off : Nat} (h : l.length ≤ off)
include h

/-- Past the first part of listed bytes stand the bytes of the rest. -/
theorem Memory.byteAt_ofBytes_append (k : Nat) :
    (Memory.ofBytes (l ++ l')).byteAt (off + k) = (Memory.ofBytes l').byteAt (off - l.length + k) := by
  rw [Memory.byteAt_ofBytes, Memory.byteAt_ofBytes, List.getElem?_append_right (by omega), Nat.sub_add_comm h]

/-- A slice past the first part is a slice of the rest. -/
theorem Memory.slice_ofBytes_append (n : Nat) :
    (Memory.ofBytes (l ++ l')).slice off n = (Memory.ofBytes l').slice (off - l.length) n :=
  List.map_congr_left fun k _ => Memory.byteAt_ofBytes_append h k

/-- A 16-bit field past the first part is a field of the rest. -/
theorem Memory.be16_ofBytes_append : (Memory.ofBytes (l ++ l')).be16 off = (Memory.ofBytes l').be16 (off - l.length) :=
  congrArg₂ (· ++ ·) (Memory.byteAt_ofBytes_append h 0) (Memory.byteAt_ofBytes_append h 1)

/-- A 32-bit field past the first part is a field of the rest. -/
theorem Memory.be32_ofBytes_append : (Memory.ofBytes (l ++ l')).be32 off = (Memory.ofBytes l').be32 (off - l.length) :=
  congrArg₂ (· ++ ·) (congrArg₂ (· ++ ·) (congrArg₂ (· ++ ·) (Memory.byteAt_ofBytes_append h 0)
    (Memory.byteAt_ofBytes_append h 1)) (Memory.byteAt_ofBytes_append h 2)) (Memory.byteAt_ofBytes_append h 3)

end

/-- The slice that is the first part of listed bytes. -/
theorem Memory.slice_ofBytes_front {f post : List Byte} {n : Nat} (h : f.length = n) :
    (Memory.ofBytes (f ++ post)).slice 0 n = f :=
  Memory.slice_middle (pre := []) rfl h

/-- The 16-bit field that stands first. -/
theorem Memory.be16_ofBytes_front (x : BitVec 16) (post : List Byte) : (Memory.ofBytes (be16Bytes x ++ post)).be16 0 = x :=
  Memory.be16_middle (pre := []) rfl

/-- The 32-bit field that stands first. -/
theorem Memory.be32_ofBytes_front (x : BitVec 32) (post : List Byte) : (Memory.ofBytes (be32Bytes x ++ post)).be32 0 = x :=
  Memory.be32_middle (pre := []) rfl

@[simp] theorem be16Bytes_length (x : BitVec 16) : (be16Bytes x).length = 2 := by simp [be16Bytes]
@[simp] theorem be32Bytes_length (x : BitVec 32) : (be32Bytes x).length = 4 := by simp [be32Bytes]

/-! ### The header (R241, R242) -/

/-- The layout of R241 is `HEADER_LEN` bytes long. -/
theorem Header.toBytes_length {h : Header} (hw : h.wf) : h.toBytes.length = 510 := by
  simp [Header.toBytes, hw]

/-- A file decodes to no header exactly when it is shorter than one (R242). -/
theorem decodeHeader_eq_none_iff {m : Memory} : decodeHeader m = none ↔ m.len < 510 := by
  simp [decodeHeader]

/-- The documented layout, whatever follows it, decodes to the header: each field stands behind those before it. -/
theorem decodeHeader_toBytes {h : Header} (hw : h.wf) (body : List Byte) :
    decodeHeader (Memory.ofBytes (h.toBytes ++ body)) = some h := by
  have hlen : ¬ (Memory.ofBytes (h.toBytes ++ body)).len < Config.headerLen := by
    simp [Header.toBytes_length hw]
  rw [decodeHeader, if_neg hlen]
  simp (disch := simp [hw]) only [Header.toBytes, List.append_assoc, Memory.slice_ofBytes_append, Memory.be16_ofBytes_append,
    Memory.be32_ofBytes_append, Memory.slice_ofBytes_front, Memory.be16_ofBytes_front, Memory.be32_ofBytes_front,
    be16Bytes_length, be32Bytes_length, Nat.reduceSub, hw]

/-- Settles O48: the layout decodes to the header, and a decode fails on the length alone. -/
theorem headerRoundTrip : Obligations.HeaderRoundTrip :=
  ⟨fun _ body hw => decodeHeader_toBytes hw body, fun _ => decodeHeader_eq_none_iff⟩

/-- Settles O49: each field by the number that its big-endian bytes form. -/
theorem headerFieldsAreBigEndian : Obligations.HeaderFieldsAreBigEndian := by
  intro m h hd
  rw [decodeHeader] at hd
  split at hd <;> cases hd
  exact ⟨m.be32_toNat _, m.be32_toNat _, m.be32_toNat _, m.be32_toNat _, m.be32_toNat _, m.be32_toNat _, m.be16_toNat _, rfl⟩

/-! ### The checksum (R245) -/

/-- A byte of a file, inside its length. -/
theorem Memory.byteAt_of_lt {m : Memory} {i : Nat} (h : i < m.len) : m.byteAt i = lookupCell i m.cells := by
  rw [Memory.byteAt, Memory.read_eq_some h, Option.getD_some]

/-- Settles O50: the unlisted bytes add nothing, and a 16-bit word is the sum modulo 2^16. -/
theorem checksumSumsTheBody : Obligations.ChecksumSumsTheBody := by
  rintro m ⟨hrising, hcells⟩
  calc (checksumOf m).toNat
      = ((m.cells.filter fun x => decide (510 ≤ x.1)).map fun x => x.2.toNat).sum % 65536 := BitVec.toNat_ofNat _ 16
    _ = (∑ i ∈ Finset.Ico 510 m.len, (lookupCell i m.cells).toNat) % 65536 := by
      rw [sum_listed hrising 510 m.len fun x hx => (hcells x hx).1]
    _ = (∑ i ∈ Finset.Ico 510 m.len, (m.byteAt i).toNat) % 65536 := by
      rw [Finset.sum_congr rfl fun i hi => congrArg BitVec.toNat (Memory.byteAt_of_lt (Finset.mem_Ico.1 hi).2).symm]

/-! ### The image (R244) -/

/-- A file that has the length already is not padded. -/
theorem Memory.padTo_of_le {m : Memory} {n : Nat} (h : n ≤ m.len) : m.padTo n = m := by
  rw [Memory.padTo, Nat.max_eq_left h]

/-- Settles O51: padding only adds zeros to a file that is too short, and the two parts of a split file join again. -/
theorem imageIsTheWholeFile : Obligations.ImageIsTheWholeFile := by
  intro f h hwf
  refine ⟨fun hlen => ⟨Memory.padTo_of_le (by omega), Memory.take_append_drop hwf⟩,
    fun hlen => ⟨?_, fun i hi => ?_, fun i h1 h2 => ?_⟩⟩
  · simp only [assemble, Memory.padTo_len]
    omega
  · rw [assemble, Memory.read_padTo hwf, if_pos hi]
  · simp only [assemble, Memory.padTo_len] at h2
    rw [assemble, Memory.read_padTo hwf, if_neg (by omega), if_pos (by omega)]

/-! ### The container (R243) -/

/-- A path selects the raw variant exactly if it ends in one of its three suffixes, in any case. -/
theorem containerOf_eq_raw_iff {path : List Char} :
    containerOf path = some .raw ↔
      ∃ x ∈ [['.', 'b', 'i', 'n'], ['.', 'g', 'e', 'n'], ['.', 'm', 'd']], x <:+ path.map Char.toLower := by
  rw [containerOf_eq]
  simp only [List.isSuffixOf_iff_suffix]
  split_ifs <;> simp [*]

/-- No path selects any other variant (C7). -/
theorem containerOf_cases (path : List Char) : containerOf path = some .raw ∨ containerOf path = none := by
  rw [containerOf_eq]
  split_ifs <;> simp

/-- Settles O52: the raw variant is told by its suffixes, none of which a path in `.smd` has: it would be a suffix of `.smd`. -/
theorem suffixSelectsContainer : Obligations.SuffixSelectsContainer := by
  intro stem suf
  refine ⟨fun hsuf => ?_, fun hsuf => ?_, fun hnone => ?_, ?_⟩
  · rw [containerOf_eq_raw_iff, List.map_append]
    exact ⟨_, hsuf, List.suffix_append _ _⟩
  · refine (containerOf_cases _).resolve_left fun hraw => ?_
    obtain ⟨x, hx, hend⟩ := containerOf_eq_raw_iff.1 hraw
    rw [List.map_append, hsuf] at hend
    have hshort : ∀ x ∈ [['.', 'b', 'i', 'n'], ['.', 'g', 'e', 'n'], ['.', 'm', 'd']],
        x.length ≤ ['.', 's', 'm', 'd'].length ∧ ¬ x <:+ ['.', 's', 'm', 'd'] := by decide
    obtain ⟨hlen, hnot⟩ := hshort x hx
    exact hnot (List.suffix_of_suffix_length_le hend (List.suffix_append _ _) hlen)
  · refine (containerOf_cases _).resolve_left fun hraw => ?_
    obtain ⟨x, hx, hend⟩ := containerOf_eq_raw_iff.1 hraw
    have hnot := hnone x (List.mem_append_left [['.', 's', 'm', 'd']] hx)
    rw [List.isSuffixOf_iff_suffix.2 hend] at hnot
    cases hnot
  · rcases containerOf_cases suf with h | h <;> rw [h] <;> decide

/-! ### `load(path)` (R246) -/

/-- The tests and the commit of a `load`, as the one state they answer (R172). -/
theorem loadTested_eq (r : LoadRequest) (w : Bool) (s : State) :
    loadTested r w s = .next ((s.withBlock (if loadStatus r = .ok then s.block.commit r else s.block)).respond
      { status := some (loadStatus r), value := none, warn := w }) := by
  unfold loadTested
  split <;> rfl

section
variable {s : State} {f : LoadFile} (ho : s.operand = .file f)
include ho

/-- A `load` of a path that selects no container (R246, R243). -/
theorem exec_load_file_unsupported (hk : containerOf f.path = none) :
    exec .load s = raiseStatus .unsupportedFormat (s.withBlock Block.reset) := by
  simp only [exec, execLoad, ho, loadPath, hk, Block.unload_eq_reset]

/-- A `load` of a file without a whole header (R246, R242). -/
theorem exec_load_file_truncated {k : Container} (hk : containerOf f.path = some k) (hd : decodeHeader f.bytes = none) :
    exec .load s = raiseStatus .truncatedHeader (s.withBlock Block.reset) := by
  simp only [exec, execLoad, ho, loadPath, hk, hd, Block.unload_eq_reset]

variable {k : Container} {h : Header} (hk : containerOf f.path = some k) (hd : decodeHeader f.bytes = some h)
include hk hd

/-- A `load` of a file shorter than its header declares (R246). -/
theorem exec_load_file_short (hlen : (f.bytes.len : Int) < h.declaredLen) :
    exec .load s = raiseStatus .headerInvalid (s.withBlock Block.reset) := by
  simp only [exec, execLoad, ho, loadPath, hk, hd, if_pos hlen, Block.unload_eq_reset]

/-- A `load` of a file that passes the host's tests is the block-level `load` of its request, with the checksum warning (R246). -/
theorem exec_load_file_tested (hlen : h.declaredLen ≤ f.bytes.len) :
    exec .load s = loadTested (requestOf h (assemble k f h)) (decide (checksumOf (assemble k f h) ≠ h.checksum))
      (s.withBlock Block.reset) := by
  have hwarn : (checksumOf (assemble k f h) != h.checksum) = decide (checksumOf (assemble k f h) ≠ h.checksum) := by
    rw [bne, beq_eq_decide, decide_not]
  simp only [exec, execLoad, ho, loadPath, hk, hd, if_neg hlen.not_gt, Block.unload_eq_reset, hwarn]

end

/-- Settles O53: the host's tests in turn; past them both levels run the same tests and the same commit. -/
theorem hostLoadRunsItsTestsInOrder : Obligations.HostLoadRunsItsTestsInOrder := by
  intro s f ho fails
  refine ⟨exec_load_file_unsupported ho, fun k hk => ⟨fun hlen => ?_, fun h hd => ⟨fun hlen => ?_, fun hlen => ?_⟩⟩⟩
  · exact exec_load_file_truncated ho hk (decodeHeader_eq_none_iff.2 hlen)
  · exact exec_load_file_short ho hk hd hlen
  · have hfile := (exec_load_file_tested ho hk hd hlen).trans (loadTested_eq _ _ _)
    have hrequest := loadTested_eq (requestOf h (assemble k f h)) false
    exact ⟨_, _, _, hfile, hrequest _, rfl, rfl, rfl, rfl, rfl⟩

/-- Settles O54: the image is the file read, and the flag field of a decoded header is the file's two bytes. -/
theorem hostRequestCarriesHeaderAndFile : Obligations.HostRequestCarriesHeaderAndFile := by
  intro f h hwf hsame hd hlen k hk
  have hheader : 510 ≤ f.bytes.len := Nat.not_lt.1 fun hlt => by simp [decodeHeader_eq_none_iff.2 hlt] at hd
  have himage : assemble k f h = f.bytes := by
    rw [← hsame] at hwf hlen hheader ⊢
    obtain ⟨hraw, hsplit⟩ := (imageIsTheWholeFile f h hwf).1 hlen
    cases k
    · exact hraw
    · exact hsplit hheader
  obtain ⟨-, -, -, -, -, -, -, hflag⟩ := headerFieldsAreBigEndian f.bytes h hd
  rw [himage, requestOf, hflag]
  rfl

end Sys2Proof.Machine
end

section
/-! The byte layout of the transaction word (log 14), and the step on a bare word or on an empty queue (logs 1, 6, 13). -/

namespace Sys2Proof.Machine

/-! ### The byte layout (log 14) -/

/-- A word takes no bit above bit 41 of a number, so cutting the number to six bytes does not change it. -/
theorem ofNat_mod_six_bytes (n : Nat) : BitVec.ofNat 42 (n % 2 ^ 48) = BitVec.ofNat 42 n :=
  BitVec.eq_of_toNat_eq (Nat.mod_mod_of_dvd n (Nat.pow_dvd_pow 2 (by decide)))

/-- The six bytes of a transaction word decode as that word. -/
theorem decodeBytes_bytesOf_toNat (v : View) (w : TWord) (rest : List Byte) :
    decodeBytes v (bytesOf 6 w.toNat ++ rest) = .ok (decodeIn v w, rest) := by
  have hw := w.isLt
  have htop : w.toNat / 2 ^ 40 % 256 < 4 := by omega
  rw [decodeBytes_bytesOf, if_pos htop, ofNat_mod_six_bytes, BitVec.ofNat_toNat, BitVec.setWidth_eq]

/-- Fewer than six bytes hold no transaction word. -/
theorem decodeBytes_of_length_lt (v : View) {l : List Byte} (hl : l.length < 6) : decodeBytes v l = .error .truncated := by
  unfold decodeBytes
  split
  · simp only [List.length_cons] at hl
    omega
  · rfl

/-- Settles O5: the sixth byte of a number below `2 ^ 48` is the number divided by `2 ^ 40`; it is below 4 exactly for the 42-bit
words. -/
theorem bytesDecodeAsTheirWord : Obligations.BytesDecodeAsTheirWord := by
  refine fun v rest => ⟨fun w => decodeBytes_bytesOf_toNat v w rest, fun n hlo hhi => ?_, fun _ hl => decodeBytes_of_length_lt v hl⟩
  have htop : ¬ n / 2 ^ 40 % 256 < 4 := by omega
  rw [decodeBytes_bytesOf, if_neg htop]

/-! ### The step on an empty queue and on a bare word -/

/-- Settles O8: the step's own equation on an empty queue. -/
theorem idleStepChangesNothing : Obligations.IdleStepChangesNothing := fun _ => step_nil

/-- What a bare word decodes to, where it decodes: the row of its low 42 bits in the view of the pattern rows (log 1). -/
theorem eq_decodeIn_of_decodeTableWord {n w : Nat} {i : Instr} (h : decodeTableWord n w = some i) :
    i = decodeIn View.patternOnly (BitVec.ofNat 42 (w % 2 ^ n)) := by
  have hbytes := decodeBytes_bytesOf View.patternOnly (w % 2 ^ n) []
  rw [List.append_nil, ofNat_mod_six_bytes] at hbytes
  rw [decodeTableWord, hbytes] at h
  split_ifs at h
  exact (Option.some.inj h).symm

/-- The view never changes what a word does, only which row it is called: all rows of one operation run the same algorithm (log 1). -/
theorem exec_decodeIn_view_irrel (v v' : View) (w : TWord) (s : State) : exec (decodeIn v w) s = exec (decodeIn v' w) s := by
  rcases opT_cases w with ho | ho | ho | ho <;> simp only [decodeIn, ho]
  · exact (exec_readRows_eq_peek (readRow_mem v _) s).trans (exec_readRows_eq_peek (readRow_mem v' _) s).symm
  · exact (exec_writeRows_eq_poke (writeRow_mem v _ _) s).trans (exec_writeRows_eq_poke (writeRow_mem v' _ _) s).symm
  · rfl
  · rfl

/-- Accepting the operation that `withFetchWord` issued gives the state back: the load operand beside the word is the one at the port
(log 6). -/
theorem State.accept_withFetchWord (s : State) (n w m : Nat) :
    (s.withFetchWord n w).accept (s.transactionOf m) s.issued = s := rfl

/-- The step of a state with a word placed by `withFetchWord` runs that word in the state itself. -/
theorem step_withFetchWord (s : State) (n w : Nat) :
    step (s.withFetchWord n w) = exec (decodeIn s.view (BitVec.ofNat 42 (w % 2 ^ n))) s := by
  rw [step_cons (s.withFetchWord_issued n w), State.accept_withFetchWord, State.view_eq, State.view_eq, State.withFetchWord_block,
    State.transactionOf]

/-- Settles O9: the step decodes the word in the block's view and the bare word is read in the view of the pattern rows; both rows run
the same algorithm. -/
theorem issuedWordRunsAsItsPatternRow : Obligations.IssuedWordRunsAsItsPatternRow := by
  intro s n w i h
  rw [eq_decodeIn_of_decodeTableWord h, step_withFetchWord]
  exact exec_decodeIn_view_irrel _ _ _ _

end Sys2Proof.Machine
end
